-- ==== Sys2Proof/Word.lean ====
section
/-! DEFINITION. The word types of the CHIP-8 core (spec 00_scope.md R7, R9, R10). -/

namespace Sys2Proof

/-- A memory byte, a general register or a timer: 8 bits, unsigned (R7, R9). -/
abbrev Byte := BitVec 8

/-- An instruction word, `pc`, `I` or a return address: 16 bits, unsigned (R7). -/
abbrev Word := BitVec 16

/-- A register index field `x` or `y`: 4 bits, so it is never out of range (R10, R20). -/
abbrev Reg := BitVec 4

/-- The count field `n = w[3:0]` (R10, R92). -/
abbrev Count := BitVec 4

/-- The address field `nnn = w[11:0]` (R10, R92). -/
abbrev Addr12 := BitVec 12

/-- VF, the register the flags are written to (R11, R21). -/
abbrev VF : Reg := 0xF#4

end Sys2Proof
end

