-- ==== Sys2Proof/Config.lean ====
section
/-! DEFINITION. What an implementation fixes (spec 00_scope.md R8) and the one free value, the RND draw. -/

namespace Sys2Proof

/-- The parameters of R8 that a rule of the core reads. Their default values, the ones this hardware takes,
are `Params.standard` (Machine/Params.lean). FRAME_RATE is timing only and KEYMAP is the host's (R8, R340, R292):
no rule of the core reads either, so neither is a field (log entry 9). -/
structure Params where
  /-- CYCLES_PER_FRAME: the instruction cycles of one frame's batch (R320). -/
  cyclesPerFrame : Nat
  /-- FONT: 16 glyphs of 5 bytes, placed at 0x050 (R214, 92_eei_decisions.md D6). -/
  font : Vector (Vector Byte 5) 16
  /-- SYS_IS_UNKNOWN: true makes the 0nnn words decode to UNKNOWN (R94). -/
  sysIsUnknown : Bool
deriving DecidableEq, Repr

/-- RND8 (R11, R42, R162, 92_eei_decisions.md D21, D40): draw number `k` of the free 8-bit input. It has no
body: nothing can be proved of its values, so a claim about RND holds for every draw (log entry 6). -/
opaque Config.rnd8 : Nat → Byte

end Sys2Proof
end

