-- ==== Sys2Proof/Syntax.lean ====
section
/-! DEFINITION. The 35 instructions (spec 00_scope.md R15, 30_encoding.md R101): one constructor per row
of spec/opcode_table.json, in the table's order, each with the operand fields its format names (R91, R103).
UNKNOWN is no row of the table: it is a result of the decoder (Decode.lean, R94). -/

namespace Sys2Proof

inductive Instr where
  | cls                                       -- 00E0  CLS
  | jp (nnn : Addr12)                         -- 1nnn  JP addr
  | call (nnn : Addr12)                       -- 2nnn  CALL addr
  | ret                                       -- 00EE  RET
  | seImm (x : Reg) (kk : Byte)               -- 3xkk  SE Vx, byte
  | sneImm (x : Reg) (kk : Byte)              -- 4xkk  SNE Vx, byte
  | seReg (x y : Reg)                         -- 5xy0  SE Vx, Vy
  | sneReg (x y : Reg)                        -- 9xy0  SNE Vx, Vy
  | ldImm (x : Reg) (kk : Byte)               -- 6xkk  LD Vx, byte
  | ldReg (x y : Reg)                         -- 8xy0  LD Vx, Vy
  | addImm (x : Reg) (kk : Byte)              -- 7xkk  ADD Vx, byte
  | orReg (x y : Reg)                         -- 8xy1  OR Vx, Vy
  | andReg (x y : Reg)                        -- 8xy2  AND Vx, Vy
  | xorReg (x y : Reg)                        -- 8xy3  XOR Vx, Vy
  | addReg (x y : Reg)                        -- 8xy4  ADD Vx, Vy
  | sub (x y : Reg)                           -- 8xy5  SUB Vx, Vy
  | shr (x y : Reg)                           -- 8xy6  SHR Vx, Vy
  | subn (x y : Reg)                          -- 8xy7  SUBN Vx, Vy
  | shl (x y : Reg)                           -- 8xyE  SHL Vx, Vy
  | ldI (nnn : Addr12)                        -- Annn  LD I, addr
  | jpV0 (nnn : Addr12)                       -- Bnnn  JP V0, addr
  | rnd (x : Reg) (kk : Byte)                 -- Cxkk  RND Vx, byte
  | drw (x y : Reg) (n : Count)               -- Dxyn  DRW Vx, Vy, nibble
  | skp (x : Reg)                             -- Ex9E  SKP Vx
  | sknp (x : Reg)                            -- ExA1  SKNP Vx
  | ldVxDt (x : Reg)                          -- Fx07  LD Vx, DT
  | ldVxK (x : Reg)                           -- Fx0A  LD Vx, K
  | ldDtVx (x : Reg)                          -- Fx15  LD DT, Vx
  | ldStVx (x : Reg)                          -- Fx18  LD ST, Vx
  | addI (x : Reg)                            -- Fx1E  ADD I, Vx
  | ldF (x : Reg)                             -- Fx29  LD F, Vx
  | ldB (x : Reg)                             -- Fx33  LD B, Vx
  | ldMemVx (x : Reg)                         -- Fx55  LD [I], Vx
  | ldVxMem (x : Reg)                         -- Fx65  LD Vx, [I]
  | sys (nnn : Addr12)                        -- 0nnn  SYS addr, the word not 00E0 and not 00EE
deriving DecidableEq, Repr

end Sys2Proof
end

