-- ==== Sys2Proof/WellFormed.lean ====
section
/-! DEFINITION. The one check the operand types leave open (spec 30_encoding.md R94, R95): a SYS whose
address makes its word 0x00E0 or 0x00EE is no SYS, because the decoder tests CLS and RET first. -/

namespace Sys2Proof

/-- Is this term an instruction some word stands for? (R95: SYS excludes 0x00E0 and 0x00EE.) -/
def Instr.wellFormed : Instr → Bool
  | .sys nnn => nnn != 0x0E0#12 && nnn != 0x0EE#12
  | .cls => true
  | .jp _ => true
  | .call _ => true
  | .ret => true
  | .seImm _ _ => true
  | .sneImm _ _ => true
  | .seReg _ _ => true
  | .sneReg _ _ => true
  | .ldImm _ _ => true
  | .ldReg _ _ => true
  | .addImm _ _ => true
  | .orReg _ _ => true
  | .andReg _ _ => true
  | .xorReg _ _ => true
  | .addReg _ _ => true
  | .sub _ _ => true
  | .shr _ _ => true
  | .subn _ _ => true
  | .shl _ _ => true
  | .ldI _ => true
  | .jpV0 _ => true
  | .rnd _ _ => true
  | .drw _ _ _ => true
  | .skp _ => true
  | .sknp _ => true
  | .ldVxDt _ => true
  | .ldVxK _ => true
  | .ldDtVx _ => true
  | .ldStVx _ => true
  | .addI _ => true
  | .ldF _ => true
  | .ldB _ => true
  | .ldMemVx _ => true
  | .ldVxMem _ => true

end Sys2Proof
end

