-- ==== Sys2Proof/Decode.lean ====
section
/-! DEFINITION. The instruction decoder (spec 30_encoding.md R90 to R97, R100), the encoder written from the
same patterns (R101), and the rows of spec/opcode_table.json. -/

namespace Sys2Proof

/-! ## Fields (R10, R91, R92) -/

/-- `w[15:12]`, the family nibble. -/
def fieldFamily (w : Word) : BitVec 4 := w.extractLsb' 12 4

/-- `x = w[11:8]`. -/
def fieldX (w : Word) : Reg := w.extractLsb' 8 4

/-- `y = w[7:4]`. -/
def fieldY (w : Word) : Reg := w.extractLsb' 4 4

/-- `n = w[3:0]`. -/
def fieldN (w : Word) : Count := w.extractLsb' 0 4

/-- `kk = w[7:0]`. -/
def fieldKK (w : Word) : Byte := w.extractLsb' 0 8

/-- `nnn = w[11:0]`. -/
def fieldNNN (w : Word) : Addr12 := w.extractLsb' 0 12

/-! ## The decoder (R93, R94) -/

/-- What the decoder answers: one of the 35 instructions with its fields, or UNKNOWN by name (R15, R94). -/
inductive Decoded where
  /-- The word is this instruction. -/
  | known (i : Instr)
  /-- UNKNOWN: the word matches no pattern. It is executed as a no-op with one diagnostic (R98). -/
  | unknown (w : Word)
deriving DecidableEq, Repr

/-- Family 0x0: the full words 0x00E0 and 0x00EE are tested before the address form SYS (R94, R95). -/
def decodeFamily0 (sysIsUnknown : Bool) (w : Word) : Decoded :=
  if w = 0x00E0#16 then .known .cls
  else if w = 0x00EE#16 then .known .ret
  else if sysIsUnknown then .unknown w
  else .known (.sys (fieldNNN w))

/-- Family 0x8: the fourth nibble selects the operation (R94). -/
def decodeFamily8 (w : Word) : Decoded :=
  match (fieldN w).toNat with
  | 0x0 => .known (.ldReg (fieldX w) (fieldY w))
  | 0x1 => .known (.orReg (fieldX w) (fieldY w))
  | 0x2 => .known (.andReg (fieldX w) (fieldY w))
  | 0x3 => .known (.xorReg (fieldX w) (fieldY w))
  | 0x4 => .known (.addReg (fieldX w) (fieldY w))
  | 0x5 => .known (.sub (fieldX w) (fieldY w))
  | 0x6 => .known (.shr (fieldX w) (fieldY w))
  | 0x7 => .known (.subn (fieldX w) (fieldY w))
  | 0xE => .known (.shl (fieldX w) (fieldY w))
  | _ => .unknown w

/-- Family 0xE: the low byte selects the operation (R94). -/
def decodeFamilyE (w : Word) : Decoded :=
  match (fieldKK w).toNat with
  | 0x9E => .known (.skp (fieldX w))
  | 0xA1 => .known (.sknp (fieldX w))
  | _ => .unknown w

/-- Family 0xF: the low byte selects the operation (R94). -/
def decodeFamilyF (w : Word) : Decoded :=
  match (fieldKK w).toNat with
  | 0x07 => .known (.ldVxDt (fieldX w))
  | 0x0A => .known (.ldVxK (fieldX w))
  | 0x15 => .known (.ldDtVx (fieldX w))
  | 0x18 => .known (.ldStVx (fieldX w))
  | 0x1E => .known (.addI (fieldX w))
  | 0x29 => .known (.ldF (fieldX w))
  | 0x33 => .known (.ldB (fieldX w))
  | 0x55 => .known (.ldMemVx (fieldX w))
  | 0x65 => .known (.ldVxMem (fieldX w))
  | _ => .unknown w

/-- The decoding function of R94: pure, total, driven by the four nibbles of the word (R93). The parameter
is SYS_IS_UNKNOWN (R8). The last arm is never reached: a nibble is below 16. -/
def decode (sysIsUnknown : Bool) (w : Word) : Decoded :=
  match (fieldFamily w).toNat with
  | 0x0 => decodeFamily0 sysIsUnknown w
  | 0x1 => .known (.jp (fieldNNN w))
  | 0x2 => .known (.call (fieldNNN w))
  | 0x3 => .known (.seImm (fieldX w) (fieldKK w))
  | 0x4 => .known (.sneImm (fieldX w) (fieldKK w))
  | 0x5 => if fieldN w = 0x0#4 then .known (.seReg (fieldX w) (fieldY w)) else .unknown w
  | 0x6 => .known (.ldImm (fieldX w) (fieldKK w))
  | 0x7 => .known (.addImm (fieldX w) (fieldKK w))
  | 0x8 => decodeFamily8 w
  | 0x9 => if fieldN w = 0x0#4 then .known (.sneReg (fieldX w) (fieldY w)) else .unknown w
  | 0xA => .known (.ldI (fieldNNN w))
  | 0xB => .known (.jpV0 (fieldNNN w))
  | 0xC => .known (.rnd (fieldX w) (fieldKK w))
  | 0xD => .known (.drw (fieldX w) (fieldY w) (fieldN w))
  | 0xE => decodeFamilyE w
  | 0xF => decodeFamilyF w
  | _ => .unknown w

/-! ## Bytes (R65, R90) -/

/-- The instruction word of two bytes: the byte at the lower address is the high byte (R65). -/
def wordOfBytes (hi lo : Byte) : Word := hi ++ lo

/-- Bits 15:8 of a word, the byte at the lower address (R65). -/
def highByte (w : Word) : Byte := w.extractLsb' 8 8

/-- Bits 7:0 of a word, the byte at the higher address (R65). -/
def lowByte (w : Word) : Byte := w.extractLsb' 0 8

/-- A word's two bytes in address order (R65). -/
def wordBytes (w : Word) : List Byte := [highByte w, lowByte w]

/-- Decoding a byte stream: an instruction is two bytes (R90). The answer holds the bytes after it;
fewer than two bytes make no instruction word. -/
def decodeBytes (sysIsUnknown : Bool) : List Byte → Option (Decoded × List Byte)
  | hi :: lo :: rest => some (decode sysIsUnknown (wordOfBytes hi lo), rest)
  | [_] => none
  | [] => none

/-! ## The encoder (R91, R101) -/

/-- Format A: `op nnn`. -/
def packA (op : BitVec 4) (nnn : Addr12) : Word := op ++ nnn

/-- Format XK: `op x kk`. -/
def packXK (op : BitVec 4) (x : Reg) (kk : Byte) : Word := op ++ (x ++ kk)

/-- Formats XY and XYN: `op x y sub` and `op x y n`. -/
def packXYN (op : BitVec 4) (x y : Reg) (n : BitVec 4) : Word := op ++ (x ++ (y ++ n))

/-- The word of an instruction, from the patterns of R101. -/
def encode : Instr → Word
  | .cls => 0x00E0#16
  | .jp nnn => packA 0x1#4 nnn
  | .call nnn => packA 0x2#4 nnn
  | .ret => 0x00EE#16
  | .seImm x kk => packXK 0x3#4 x kk
  | .sneImm x kk => packXK 0x4#4 x kk
  | .seReg x y => packXYN 0x5#4 x y 0x0#4
  | .sneReg x y => packXYN 0x9#4 x y 0x0#4
  | .ldImm x kk => packXK 0x6#4 x kk
  | .ldReg x y => packXYN 0x8#4 x y 0x0#4
  | .addImm x kk => packXK 0x7#4 x kk
  | .orReg x y => packXYN 0x8#4 x y 0x1#4
  | .andReg x y => packXYN 0x8#4 x y 0x2#4
  | .xorReg x y => packXYN 0x8#4 x y 0x3#4
  | .addReg x y => packXYN 0x8#4 x y 0x4#4
  | .sub x y => packXYN 0x8#4 x y 0x5#4
  | .shr x y => packXYN 0x8#4 x y 0x6#4
  | .subn x y => packXYN 0x8#4 x y 0x7#4
  | .shl x y => packXYN 0x8#4 x y 0xE#4
  | .ldI nnn => packA 0xA#4 nnn
  | .jpV0 nnn => packA 0xB#4 nnn
  | .rnd x kk => packXK 0xC#4 x kk
  | .drw x y n => packXYN 0xD#4 x y n
  | .skp x => packXK 0xE#4 x 0x9E#8
  | .sknp x => packXK 0xE#4 x 0xA1#8
  | .ldVxDt x => packXK 0xF#4 x 0x07#8
  | .ldVxK x => packXK 0xF#4 x 0x0A#8
  | .ldDtVx x => packXK 0xF#4 x 0x15#8
  | .ldStVx x => packXK 0xF#4 x 0x18#8
  | .addI x => packXK 0xF#4 x 0x1E#8
  | .ldF x => packXK 0xF#4 x 0x29#8
  | .ldB x => packXK 0xF#4 x 0x33#8
  | .ldMemVx x => packXK 0xF#4 x 0x55#8
  | .ldVxMem x => packXK 0xF#4 x 0x65#8
  | .sys nnn => packA 0x0#4 nnn

/-- An instruction's two bytes in address order (R65, R90). -/
def encodeBytes (i : Instr) : List Byte := wordBytes (encode i)

/-! ## The opcode table -/

/-- The `mask` and `match` of an instruction's row of spec/opcode_table.json. -/
def tableRow : Instr → Word × Word
  | .cls => (0xFFFF#16, 0x00E0#16)
  | .jp _ => (0xF000#16, 0x1000#16)
  | .call _ => (0xF000#16, 0x2000#16)
  | .ret => (0xFFFF#16, 0x00EE#16)
  | .seImm _ _ => (0xF000#16, 0x3000#16)
  | .sneImm _ _ => (0xF000#16, 0x4000#16)
  | .seReg _ _ => (0xF00F#16, 0x5000#16)
  | .sneReg _ _ => (0xF00F#16, 0x9000#16)
  | .ldImm _ _ => (0xF000#16, 0x6000#16)
  | .ldReg _ _ => (0xF00F#16, 0x8000#16)
  | .addImm _ _ => (0xF000#16, 0x7000#16)
  | .orReg _ _ => (0xF00F#16, 0x8001#16)
  | .andReg _ _ => (0xF00F#16, 0x8002#16)
  | .xorReg _ _ => (0xF00F#16, 0x8003#16)
  | .addReg _ _ => (0xF00F#16, 0x8004#16)
  | .sub _ _ => (0xF00F#16, 0x8005#16)
  | .shr _ _ => (0xF00F#16, 0x8006#16)
  | .subn _ _ => (0xF00F#16, 0x8007#16)
  | .shl _ _ => (0xF00F#16, 0x800E#16)
  | .ldI _ => (0xF000#16, 0xA000#16)
  | .jpV0 _ => (0xF000#16, 0xB000#16)
  | .rnd _ _ => (0xF000#16, 0xC000#16)
  | .drw _ _ _ => (0xF000#16, 0xD000#16)
  | .skp _ => (0xF0FF#16, 0xE09E#16)
  | .sknp _ => (0xF0FF#16, 0xE0A1#16)
  | .ldVxDt _ => (0xF0FF#16, 0xF007#16)
  | .ldVxK _ => (0xF0FF#16, 0xF00A#16)
  | .ldDtVx _ => (0xF0FF#16, 0xF015#16)
  | .ldStVx _ => (0xF0FF#16, 0xF018#16)
  | .addI _ => (0xF0FF#16, 0xF01E#16)
  | .ldF _ => (0xF0FF#16, 0xF029#16)
  | .ldB _ => (0xF0FF#16, 0xF033#16)
  | .ldMemVx _ => (0xF0FF#16, 0xF055#16)
  | .ldVxMem _ => (0xF0FF#16, 0xF065#16)
  | .sys _ => (0xF000#16, 0x0000#16)

/-- The instruction word in the low `nbits` bits of `w`, bit 0 the least significant bit of the first (and only)
word; every bit above `nbits` is 0 (R90: one 16-bit word). -/
def tableWord (nbits w : Nat) : Word := BitVec.ofNat 16 (w % 2 ^ nbits)

/-- The instruction the decoder reads from an opcode table word, laid out as two bytes, high byte first (R65);
none for UNKNOWN. The parameter SYS_IS_UNKNOWN stands at its default, false (R8). -/
def decodeTableWord (nbits w : Nat) : Option Instr :=
  match decodeBytes false (wordBytes (tableWord nbits w)) with
  | some (.known i, _) => some i
  | some (.unknown _, _) => none
  | none => none

end Sys2Proof
end

