-- ==== Sys2Proof/Machine/State.lean ====
section
/-! DEFINITION. The state of the core (spec 10_state.md R20 to R44), its interface queues, its reset value (R41),
and the two reasons types of a step. -/

namespace Sys2Proof.Machine

/-! ## Parts of the state -/

/-- Memory: the bytes that differ from the reset contents, by rising address (R34, R60). What an unlisted address
reads as is `initialByte`, and the form is `Memory.wf` (both in Machine/Ops.lean). -/
abbrev Memory := List Host.Cell

/-- The framebuffer: 32 rows of 64 one-bit pixels; bit x of row y is `fb[y][x]`, 1 means set (R33). A row is a
word of bits because the Frame payload numbers its pixels as bits (R296). -/
abbrev Framebuffer := Vector (BitVec 64) 32

/-- The causes of R260 that a cycle can raise. Their 4-bit codes are `FaultCause.code` (Machine/Ops.lean). -/
inductive FaultCause where
  | fetchRange
  | memRange
  | stackOverflow
  | stackUnderflow
  | keyRange
deriving DecidableEq, Repr

/-- The fault record FAULT (R37, R40). -/
structure FaultRecord where
  valid : Bool
  cause : BitVec 4
  pc : Word
  word : Word
  info : Word
deriving DecidableEq, Repr

/-- FAULT as reset leaves it: valid = 0, all fields 0 (R41). -/
def FaultRecord.none : FaultRecord :=
  { valid := false, cause := 0#4, pc := 0#16, word := 0#16, info := 0#16 }

/-- The phases of the frame sequencer (R38, R320). -/
inductive Phase where
  | idle
  | input
  | exec
  | audio
  | timers
  | render
  | halted
deriving DecidableEq, Repr

/-- The frame sequencer state SEQ (R38). `cycle` counts the instruction cycles completed in the frame. -/
structure Sequencer where
  phase : Phase
  cycle : Nat
  quit : Bool
deriving DecidableEq, Repr

/-- An event of the host's key stream: a transition of keypad slot k, or the quit event (R42, R290). -/
inductive HostEvent where
  | key (k : Fin 16) (down : Bool)
  | quit
deriving DecidableEq, Repr

/-- What the host does at the core's inputs, one item each (R42): deliver the ROM bytes (`none`: the ROM cannot be
read, R312), queue an event, or strobe `frame_start`. -/
inductive HostInput where
  | rom (bytes : Option (List Byte))
  | event (e : HostEvent)
  | frameStart
deriving DecidableEq, Repr

/-- Where the boot stands (R311, R312; log entries 3 and 4): the ROM may still be delivered, or the time for it is
over and frames run, or its load failed and no frame ever runs. -/
inductive Boot where
  | awaitRom
  | ready
  | failed
deriving DecidableEq, Repr

/-- A message on an output interface (R43). -/
inductive Output where
  /-- `Frame(fb)`: the 2048 bits of the grid, in the order of R296. -/
  | frame (payload : BitVec 2048)
  | audioStart
  | audioStop
  /-- `Diag(word, pc_i)` (R265). -/
  | diag (word pc : Word)
  /-- `Fault(FAULT)` (R262). -/
  | fault (record : FaultRecord)
  | loadError
deriving DecidableEq, Repr

/-! ## The state -/

/-- Everything the spec gives the machine, and after it the interface queues. -/
structure State where
  /-- V0 to VF (R20). -/
  v : Vector Byte 16
  /-- The index register (R27). -/
  I : Word
  /-- The program counter (R22). -/
  pc : Word
  /-- The return stack's slots (R28). -/
  stack : Vector Word 16
  /-- The stack pointer, 0 to 16: the number of occupied slots (R29). -/
  sp : Fin 17
  /-- The delay timer (R30). -/
  DT : Byte
  /-- The sound timer (R31). -/
  ST : Byte
  /-- The keypad, true means pressed (R32). -/
  key : Vector Bool 16
  /-- The framebuffer (R33). -/
  fb : Framebuffer
  /-- The 4096 bytes of memory (R34). -/
  mem : Memory
  /-- The instruction register (R35). -/
  IR : Word
  /-- The audio gate's edge state (R36). -/
  audioActive : Bool
  /-- The fault record (R37). -/
  FAULT : FaultRecord
  /-- The frame sequencer (R38). -/
  SEQ : Sequencer
  /-- Where the boot stands (R311, R312; the model's own, log entries 3 and 4). -/
  boot : Boot
  /-- `key_events`: the events that arrived since the last INPUT phase, oldest first (R42, R290). -/
  keyEvents : List HostEvent
  /-- What the host is still to do at the inputs, in order (R42; the model's own, log entry 2). -/
  inbox : List HostInput
  /-- Every message sent on an output interface so far, oldest first (R43; the model's own, log entry 7). -/
  out : List Output
  /-- How many RND8 draws were taken (R162; the model's own, log entry 6). -/
  draws : Nat
deriving DecidableEq, Repr

/-- The state right after reset, before the ROM is loaded, with the default FONT (R41, R310): memory lists nothing,
so every byte reads as its reset contents. -/
def State.reset : State where
  v := Vector.replicate 16 0#8
  I := 0x0000#16
  pc := 0x0200#16
  stack := Vector.replicate 16 0x0000#16
  sp := 0
  DT := 0x00#8
  ST := 0x00#8
  key := Vector.replicate 16 false
  fb := Vector.replicate 32 0#64
  mem := []
  IR := 0x0000#16
  audioActive := false
  FAULT := FaultRecord.none
  SEQ := { phase := .idle, cycle := 0, quit := false }
  boot := .awaitRom
  keyEvents := []
  inbox := []
  out := []
  draws := 0

/-! ## Why a step can stop -/

/-- No step of this machine ends outside its state, so the type has no constructor (log entry 11). The faults of R260
are states: the core records FAULT and halts, which is a next state (R261). -/
inductive Fault where
deriving DecidableEq, Repr

/-- Why a step has no meaning. -/
inductive Refusal where
  /-- Raised by `exec` for an instruction that has no meaning yet; safe, since the run stops. No arm raises it. -/
  | notModelled (mnemonic : String)
deriving DecidableEq, Repr

end Sys2Proof.Machine
end

