-- ==== Sys2Proof/Machine/Operands.lean ====
section
/-! DEFINITION. Operand forms: the general registers and the extended address (spec 10_state.md R20, R27;
30_encoding.md R92; 00_scope.md R11). -/

namespace Sys2Proof.Machine

/-- `V[x]` (R11, R20). The 4-bit index is always in range. -/
def State.readV (s : State) (x : Reg) : Byte := s.v[x.toNat]'x.isLt

/-- `V[x] <- b` (R11, R20): no register is hardwired, VF is written like any other (R21). -/
def State.writeV (s : State) (x : Reg) (b : Byte) : State :=
  { s with v := s.v.set x.toNat b x.isLt }

/-- `zext_16(nnn)` (R92). -/
def addrToWord (nnn : Addr12) : Word := nnn.setWidth 16

/-- `zext_16(V[x])` (R9). -/
def byteToWord (b : Byte) : Word := b.setWidth 16

end Sys2Proof.Machine
end

