-- ==== Sys2Proof/Machine/Flags.lean ====
section
/-! DEFINITION. Results and VF values of the arithmetic, the shifts and DRW (spec 41_register_alu.md R157 to
R161, R163; 44_display.md R242). VF is the only flag, and it is a whole byte, 1 or 0 (R13). -/

namespace Sys2Proof.Machine

/-- A flag value as VF holds it. -/
def flagByte (set : Bool) : Byte := if set then 1#8 else 0#8

/-- ADD_REG: `trunc_8(a + b)` (R157). -/
def addResult (a b : Byte) : Byte := BitVec.ofNat 8 (a.toNat + b.toNat)

/-- ADD_REG: VF = 1 exactly when there is NO carry, the inverted polarity (R157). -/
def addFlag (a b : Byte) : Byte := flagByte (a.toNat + b.toNat < 256)

/-- SUB: `trunc_8(a - b + 256)`; SUBN is the same with its operands exchanged (R158, R160). -/
def subResult (a b : Byte) : Byte := BitVec.ofNat 8 (a.toNat + 256 - b.toNat)

/-- SUB: VF = 0 on borrow, a < b, and 1 otherwise (R158, R160). -/
def subFlag (a b : Byte) : Byte := flagByte (!(a.toNat < b.toNat))

/-- SHR: the logical shift right by one (R159). -/
def shrResult (b : Byte) : Byte := b >>> 1

/-- SHR: `b & 1`, the bit shifted out (R159). -/
def shrFlag (b : Byte) : Byte := b &&& 1#8

/-- SHL: `trunc_8(b << 1)` (R161). -/
def shlResult (b : Byte) : Byte := b <<< 1

/-- SHL: `b >> 7`, the bit shifted out (R161). -/
def shlFlag (b : Byte) : Byte := b >>> 7

/-- DRW: VF = 1 if some pixel went from 1 to 0 (R242). -/
def collisionFlag (collision : Bool) : Byte := flagByte collision

end Sys2Proof.Machine
end

