-- ==== Sys2Proof/Machine/Params.lean ====
section
/-! DEFINITION. The values this hardware takes for the parameters of spec 00_scope.md R8, the default FONT
among them (92_eei_decisions.md D6, 93_implementation_defined.md G4). -/

namespace Sys2Proof

/-- FONT's default: glyph d of hex digit d, five row bytes, top row first (D6, R214). -/
def fontDefault : Vector (Vector Byte 5) 16 :=
  #v[#v[0xF0, 0x90, 0x90, 0x90, 0xF0],    -- 0
     #v[0x20, 0x60, 0x20, 0x20, 0x70],    -- 1
     #v[0xF0, 0x10, 0xF0, 0x80, 0xF0],    -- 2
     #v[0xF0, 0x10, 0xF0, 0x10, 0xF0],    -- 3
     #v[0x90, 0x90, 0xF0, 0x10, 0x10],    -- 4
     #v[0xF0, 0x80, 0xF0, 0x10, 0xF0],    -- 5
     #v[0xF0, 0x80, 0xF0, 0x90, 0xF0],    -- 6
     #v[0xF0, 0x10, 0x20, 0x40, 0x40],    -- 7
     #v[0xF0, 0x90, 0xF0, 0x90, 0xF0],    -- 8
     #v[0xF0, 0x90, 0xF0, 0x10, 0xF0],    -- 9
     #v[0xF0, 0x90, 0xF0, 0x90, 0x90],    -- A
     #v[0xE0, 0x90, 0xE0, 0x90, 0xE0],    -- B
     #v[0xF0, 0x80, 0x80, 0x80, 0xF0],    -- C
     #v[0xE0, 0x90, 0x90, 0x90, 0xE0],    -- D
     #v[0xF0, 0x80, 0xF0, 0x80, 0xF0],    -- E
     #v[0xF0, 0x80, 0xF0, 0x80, 0x80]]    -- F

/-- The 80 bytes of a font in address order (R214). -/
def fontBytes (font : Vector (Vector Byte 5) 16) : List Byte :=
  font.toList.flatMap Vector.toList

/-- The parameter values this hardware takes (R8, D3, D6, D32). -/
def Params.standard : Params :=
  { cyclesPerFrame := 10, font := fontDefault, sysIsUnknown := false }

end Sys2Proof
end

