-- ==== Sys2Proof/Machine/Ops.lean ====
section
/-! DEFINITION. The shared operations: memory (spec 20_memory.md), the outputs (10_state.md R43), raising a fault
(60_exceptions.md R260, R261), the program counter and the return stack (10_state.md R22 to R29). -/

namespace Sys2Proof.Machine

/-! ## Memory (R60 to R64, R70) -/

/-- MEM_SIZE (R7). -/
def memSize : Nat := 4096

/-- FONT_BASE (R7). -/
def fontBase : Nat := 0x050

/-- PROG_BASE (R7). -/
def progBase : Nat := 0x200

/-- MAX_ROM (R7). -/
def maxRom : Nat := 3584

/-- What an unlisted address reads as: its reset contents, the default font at 0x050 to 0x09F and zero everywhere
else (R41, R70). -/
def initialByte (a : Nat) : Byte :=
  if 0x050 ≤ a ∧ a < 0x0A0 then
    (fontDefault.get ⟨(a - 0x050) / 5 % 16, Nat.mod_lt _ (by decide)⟩).get
      ⟨(a - 0x050) % 5, Nat.mod_lt _ (by decide)⟩
  else 0#8

/-- The byte held at an address: its entry, or the reset contents. -/
def Memory.byteAt : Memory → Nat → Byte
  | [], a => initialByte a
  | (b, w) :: rest, a => if b = a then w else Memory.byteAt rest a

/-- Setting one byte, keeping the canonical form: an entry equal to the reset contents is removed. -/
def Memory.put : Memory → Nat → Byte → Memory
  | [], a, v => if v = initialByte a then [] else [(a, v)]
  | (b, w) :: rest, a, v =>
    if a < b then
      if v = initialByte a then (b, w) :: rest else (a, v) :: (b, w) :: rest
    else if a = b then
      if v = initialByte a then rest else (a, v) :: rest
    else (b, w) :: Memory.put rest a v

/-- Setting consecutive bytes from an address, lowest first. -/
def Memory.putMany (m : Memory) (a : Nat) : List Byte → Memory
  | [] => m
  | v :: vs => Memory.putMany (m.put a v) (a + 1) vs

/-- Every listed address lies above `a`, the addresses rise strictly, lie in 0x000 to 0xFFF, and no entry equals the
reset contents of its address. -/
def Memory.wfAbove (lo : Nat) : Memory → Bool
  | [] => true
  | (b, w) :: rest => decide (lo ≤ b) && decide (b < memSize) && w != initialByte b && Memory.wfAbove (b + 1) rest

/-- The canonical form of memory (R60: 4096 bytes). -/
def Memory.wf (m : Memory) : Bool := m.wfAbove 0

/-- `MemRead(a, 1)`: none stands for the raised MEM_RANGE (R61). -/
def memRead (a : Nat) (s : State) : Option Byte :=
  if a < memSize then some (s.mem.byteAt a) else none

/-- `MemWrite(a, 1, v)`: none stands for the raised MEM_RANGE; every address in range is writable (R62, R71). -/
def memWrite (a : Nat) (v : Byte) (s : State) : Option State :=
  if a < memSize then some { s with mem := s.mem.put a v } else none

/-- The `n` bytes from address `a`: all of them, or none when some address is out of range (R64). -/
def memReadMany (a : Nat) : Nat → State → Option (List Byte)
  | 0, _ => some []
  | n + 1, s =>
    match memRead a s, memReadMany (a + 1) n s with
    | some b, some bs => some (b :: bs)
    | _, _ => none

/-- Writes consecutive bytes from address `a`: all of them, or none when some address is out of range (R64). -/
def memWriteMany (a : Nat) : List Byte → State → Option State
  | [], s => some s
  | b :: bs, s =>
    match memWrite a b s with
    | some t => memWriteMany (a + 1) bs t
    | none => none

/-- The lowest offending address of an access that runs past the top of memory: `max(I, 4096)` (R64, R215). -/
def lowestOffending (base : Nat) : Nat := max base memSize

/-! ## Outputs (R43) -/

/-- `emit`: one message on an output interface. -/
def State.emit (s : State) (o : Output) : State := { s with out := s.out ++ [o] }

/-! ## Faults (R260, R261) -/

/-- The cause codes of R260. -/
def FaultCause.code : FaultCause → BitVec 4
  | .fetchRange => 1#4
  | .memRange => 2#4
  | .stackOverflow => 3#4
  | .stackUnderflow => 4#4
  | .keyRange => 5#4

/-- FAULT as one 53-bit register: valid[52], cause[51:48], pc[47:32], word[31:16], info[15:0] (R40). -/
def FaultRecord.bits (f : FaultRecord) : BitVec 53 :=
  BitVec.ofBool f.valid ++ (f.cause ++ (f.pc ++ (f.word ++ f.info)))

/-- The record a fault leaves; the info is `trunc_16` of the offending number (R261). -/
def faultRecord (cause : FaultCause) (pc word : Word) (info : Nat) : FaultRecord :=
  { valid := true, cause := cause.code, pc := pc, word := word, info := BitVec.ofNat 16 info }

/-- Halting with a fault record: FAULT is written, the sequencer halts, and one Fault message is sent (R261, R262). -/
def State.haltWith (s : State) (r : FaultRecord) : State :=
  { s with
    FAULT := r
    SEQ := { s.SEQ with phase := .halted }
    out := s.out ++ [.fault r] }

/-- `raise Fault(cause, info)` by the instruction in execution, the one operation every faulting instruction takes
(R261). The state is the one after fetch, so the instruction's address `pc_i` is `pc - 2`; the pc goes back to it, and
FAULT records it with the word in IR. A fault has no vector and saves nothing else (R267), and nothing returns from it
(R268). The end of the cycle restores IR (`endCycle`, Machine/Sequencer.lean). -/
def State.raiseFault (s : State) (cause : FaultCause) (info : Nat) : State :=
  State.haltWith { s with pc := s.pc - 2#16 } (faultRecord cause (s.pc - 2#16) s.IR info)

/-- `raise Fault(FETCH_RANGE, pc_i)` by the fetch: nothing was fetched, so the pc stands and the word is 0
(R66, R37). -/
def State.raiseFetchFault (s : State) : State :=
  s.haltWith (faultRecord .fetchRange s.pc 0#16 s.pc.toNat)

/-! ## Program counter (R22 to R26) -/

/-- `pc <- target` (R11). -/
def State.jumpTo (s : State) (target : Word) : State := { s with pc := target }

/-- A skip: pc moves two bytes further when the condition holds (R120, R125). -/
def State.skipIf (s : State) (cond : Bool) : State :=
  if cond then s.jumpTo (s.pc + 2#16) else s

/-! ## Other registers (R27, R30, R31) -/

/-- `I <- w`. -/
def State.setI (s : State) (w : Word) : State := { s with I := w }

/-- `DT <- b`. -/
def State.setDT (s : State) (b : Byte) : State := { s with DT := b }

/-- `ST <- b`. -/
def State.setST (s : State) (b : Byte) : State := { s with ST := b }

/-- `fb <- f`. -/
def State.setFb (s : State) (f : Framebuffer) : State := { s with fb := f }

/-! ## Return stack (R28, R29) -/

/-- CALL's push: `stack[sp] <- w; sp <- sp + 1`; none when all 16 slots are occupied (R29, R123). -/
def State.push (s : State) (w : Word) : Option State :=
  if h : s.sp.val < 16 then
    some { s with stack := s.stack.set s.sp.val w h, sp := ⟨s.sp.val + 1, Nat.succ_lt_succ h⟩ }
  else none

/-- RET's pop: `sp <- sp - 1`, and the word in `stack[sp]`, which keeps its value; none when sp = 0 (R29, R124, D34). -/
def State.pop (s : State) : Option (Word × State) :=
  if h : 0 < s.sp.val then
    some (s.stack[s.sp.val - 1]'(by omega), { s with sp := ⟨s.sp.val - 1, by omega⟩ })
  else none

/-! ## The free draw (R162) -/

/-- `draw RND8`: the next free byte, and the state with the draw counted (R11, R162). -/
def State.drawRnd8 (s : State) : Byte × State :=
  (Config.rnd8 s.draws, { s with draws := s.draws + 1 })

end Sys2Proof.Machine
end

