-- ==== Sys2Proof/Machine/Alu.lean ====
section
/-! DEFINITION. Register loads, logic, arithmetic, shifts and RND (spec 41_register_alu.md). Every operand is read
before any register is written (R150). -/

namespace Sys2Proof.Machine

/-- LD_IMM: `V[x] <- kk` (R151). -/
def execLdImm (x : Reg) (kk : Byte) (s : State) : Host.Outcome State Fault Refusal :=
  .next (s.writeV x kk)

/-- ADD_IMM: `V[x] <- trunc_8(V[x] + kk)`, no flag (R152). -/
def execAddImm (x : Reg) (kk : Byte) (s : State) : Host.Outcome State Fault Refusal :=
  .next (s.writeV x (addResult (s.readV x) kk))

/-- LD_REG: `V[x] <- V[y]` (R153). -/
def execLdReg (x y : Reg) (s : State) : Host.Outcome State Fault Refusal :=
  .next (s.writeV x (s.readV y))

/-- OR: no flag (R154, D15). -/
def execOr (x y : Reg) (s : State) : Host.Outcome State Fault Refusal :=
  .next (s.writeV x (s.readV x ||| s.readV y))

/-- AND: no flag (R155, D15). -/
def execAnd (x y : Reg) (s : State) : Host.Outcome State Fault Refusal :=
  .next (s.writeV x (s.readV x &&& s.readV y))

/-- XOR: no flag (R156, D15). -/
def execXor (x y : Reg) (s : State) : Host.Outcome State Fault Refusal :=
  .next (s.writeV x (s.readV x ^^^ s.readV y))

/-- V[x] is written first and VF last: with x = F, VF ends holding the flag (R150, D16). -/
def State.writeResultThenFlag (s : State) (x : Reg) (result flag : Byte) : State :=
  (s.writeV x result).writeV VF flag

/-- VF is written first and V[x] last: with x = F, VF ends holding the result (R150, D16). -/
def State.writeFlagThenResult (s : State) (x : Reg) (flag result : Byte) : State :=
  (s.writeV VF flag).writeV x result

/-- ADD_REG: the sum modulo 256, and VF = 1 exactly when no carry occurred (R157). -/
def execAddReg (x y : Reg) (s : State) : Host.Outcome State Fault Refusal :=
  .next (s.writeResultThenFlag x (addResult (s.readV x) (s.readV y)) (addFlag (s.readV x) (s.readV y)))

/-- SUB: Vx - Vy, and VF = 0 on borrow (R158). -/
def execSub (x y : Reg) (s : State) : Host.Outcome State Fault Refusal :=
  .next (s.writeResultThenFlag x (subResult (s.readV x) (s.readV y)) (subFlag (s.readV x) (s.readV y)))

/-- SUBN: Vy - Vx, and VF = 0 on borrow (R160). -/
def execSubn (x y : Reg) (s : State) : Host.Outcome State Fault Refusal :=
  .next (s.writeResultThenFlag x (subResult (s.readV y) (s.readV x)) (subFlag (s.readV y) (s.readV x)))

/-- SHR: V[y] shifted right into V[x], written last; VF takes bit 0 of V[y] (R159). -/
def execShr (x y : Reg) (s : State) : Host.Outcome State Fault Refusal :=
  .next (s.writeFlagThenResult x (shrFlag (s.readV y)) (shrResult (s.readV y)))

/-- SHL: V[y] shifted left into V[x], written last; VF takes bit 7 of V[y] (R161). -/
def execShl (x y : Reg) (s : State) : Host.Outcome State Fault Refusal :=
  .next (s.writeFlagThenResult x (shlFlag (s.readV y)) (shlResult (s.readV y)))

/-- RND: `V[x] <- r & kk` for a fresh free byte r (R162). -/
def execRnd (x : Reg) (kk : Byte) (s : State) : Host.Outcome State Fault Refusal :=
  .next (s.drawRnd8.2.writeV x (s.drawRnd8.1 &&& kk))

end Sys2Proof.Machine
end

