-- ==== Sys2Proof/Machine/ControlFlow.lean ====
section
/-! DEFINITION. Control flow: SYS, JP, CALL, RET, the four register skips, JP V0 (spec 40_control_flow.md). A meaning
starts from the state after fetch, where pc = pc_i + 2 (00_scope.md R12). -/

namespace Sys2Proof.Machine

/-- SYS: no operation; the address is ignored (R121). -/
def execSys (_nnn : Addr12) (s : State) : Host.Outcome State Fault Refusal := .next s

/-- JP: `pc <- zext_16(nnn)` (R122). -/
def execJp (nnn : Addr12) (s : State) : Host.Outcome State Fault Refusal :=
  .next (s.jumpTo (addrToWord nnn))

/-- CALL: pushes the return address and jumps; STACK_OVERFLOW when sp = 16 (R123). -/
def execCall (nnn : Addr12) (s : State) : Host.Outcome State Fault Refusal :=
  match s.push s.pc with
  | some t => .next (t.jumpTo (addrToWord nnn))
  | none => .next (s.raiseFault .stackOverflow s.sp.val)

/-- RET: pops the return address into pc; STACK_UNDERFLOW when sp = 0 (R124). -/
def execRet (s : State) : Host.Outcome State Fault Refusal :=
  match s.pop with
  | some (target, t) => .next (t.jumpTo target)
  | none => .next (s.raiseFault .stackUnderflow 0)

/-- SE_IMM: skip if V[x] = kk (R125). -/
def execSeImm (x : Reg) (kk : Byte) (s : State) : Host.Outcome State Fault Refusal :=
  .next (s.skipIf (s.readV x == kk))

/-- SNE_IMM: skip if V[x] differs from kk (R126). -/
def execSneImm (x : Reg) (kk : Byte) (s : State) : Host.Outcome State Fault Refusal :=
  .next (s.skipIf (s.readV x != kk))

/-- SE_REG: skip if V[x] = V[y] (R127). -/
def execSeReg (x y : Reg) (s : State) : Host.Outcome State Fault Refusal :=
  .next (s.skipIf (s.readV x == s.readV y))

/-- SNE_REG: skip if V[x] differs from V[y] (R128). -/
def execSneReg (x y : Reg) (s : State) : Host.Outcome State Fault Refusal :=
  .next (s.skipIf (s.readV x != s.readV y))

/-- JP_V0: `pc <- zext_16(nnn) + zext_16(V[0])`, always V0, at most 0x10FE (R129). -/
def execJpV0 (nnn : Addr12) (s : State) : Host.Outcome State Fault Refusal :=
  .next (s.jumpTo (addrToWord nnn + byteToWord (s.readV 0#4)))

end Sys2Proof.Machine
end

