-- ==== Sys2Proof/Machine/Display.lean ====
section
/-! DEFINITION. The framebuffer and the display instructions (spec 44_display.md; 10_state.md R33). -/

namespace Sys2Proof.Machine

/-- `fb[y][x]`: column x, row y (R33). -/
def Framebuffer.pixel (fb : Framebuffer) (x : Fin 64) (y : Fin 32) : Bool := (fb.get y).getLsbD x.val

/-- `fb[y][x] <- fb[y][x] ^ 1` (R242). -/
def Framebuffer.flip (fb : Framebuffer) (x : Fin 64) (y : Fin 32) : Framebuffer :=
  fb.set y.val (fb.get y ^^^ BitVec.ofNat 64 (2 ^ x.val)) y.isLt

/-- All 2048 pixels 0 (R241). -/
def Framebuffer.clear : Framebuffer := Vector.replicate 32 0#64

/-- `n mod 64`, a column of the screen: the wrap of one pixel's column (R240). -/
def screenColumn (n : Nat) : Fin 64 := ⟨n % 64, Nat.mod_lt n (by decide)⟩

/-- `n mod 32`, a row of the screen: the wrap of one pixel's row (R240). -/
def screenRow (n : Nat) : Fin 32 := ⟨n % 32, Nat.mod_lt n (by decide)⟩

/-- One pixel of the DRW loop: a set bit `7 - col` of the row byte `b` flips pixel `((x0 + col) mod 64, py)`, and a flip
from 1 to 0 is a collision (R240, R242). -/
def drawPixel (x0 : Nat) (py : Fin 32) (b : Byte) (acc : Framebuffer × Bool) (col : Nat) : Framebuffer × Bool :=
  if b.getLsbD (7 - col) then
    (acc.1.flip (screenColumn (x0 + col)) py, acc.2 || acc.1.pixel (screenColumn (x0 + col)) py)
  else acc

/-- One row of the DRW loop: columns 0 to 7 (R242). -/
def drawRow (x0 : Nat) (py : Fin 32) (b : Byte) (acc : Framebuffer × Bool) : Framebuffer × Bool :=
  (List.range 8).foldl (drawPixel x0 py b) acc

/-- The DRW loop over the rows of a sprite, the first row at `y0 mod 32`, each later one a row lower, wrapped by itself
(R240, R242). -/
def drawRows (x0 y0 : Nat) : List Byte → Framebuffer × Bool → Framebuffer × Bool
  | [], acc => acc
  | b :: bs, acc => drawRows x0 (y0 + 1) bs (drawRow x0 (screenRow y0) b acc)

/-- CLS: every pixel 0; VF unchanged (R241). -/
def execCls (s : State) : Host.Outcome State Fault Refusal := .next (s.setFb Framebuffer.clear)

/-- Drawing the sprite rows `bs` at V[x], V[y], both read before VF is written last (R242). -/
def State.drawSprite (s : State) (x y : Reg) (bs : List Byte) : State :=
  (s.setFb (drawRows (s.readV x).toNat (s.readV y).toNat bs (s.fb, false)).1).writeV VF
    (collisionFlag (drawRows (s.readV x).toNat (s.readV y).toNat bs (s.fb, false)).2)

/-- DRW: n rows from memory at I; MEM_RANGE leaves fb and VF unchanged; n = 0 reads nothing, draws nothing and sets
VF = 0 (R242, D17). -/
def execDrw (x y : Reg) (n : Count) (s : State) : Host.Outcome State Fault Refusal :=
  match memReadMany s.I.toNat n.toNat s with
  | some bs => .next (s.drawSprite x y bs)
  | none => .next (s.raiseFault .memRange (lowestOffending s.I.toNat))

end Sys2Proof.Machine
end

