-- ==== Sys2Proof/Machine/IndexMemory.lean ====
section
/-! DEFINITION. The index register and the memory transfers (spec 43_index_memory.md). Every address is exactly
`I + k` (20_memory.md R63), and an instruction completes all its accesses or none (R64). -/

namespace Sys2Proof.Machine

/-- LD_I: `I <- zext_16(nnn)` (R211). -/
def execLdI (nnn : Addr12) (s : State) : Host.Outcome State Fault Refusal :=
  .next (s.setI (addrToWord nnn))

/-- ADD_I: `I <- trunc_16(I + V[x])`, no flag (R212). -/
def execAddI (x : Reg) (s : State) : Host.Outcome State Fault Refusal :=
  .next (s.setI (s.I + byteToWord (s.readV x)))

/-- The font address of a digit byte, `0x050 + 5 * v`: exact, at most 0x54B, not masked (R213, D20). -/
def glyphAddress (v : Byte) : Word := BitVec.ofNat 16 (fontBase + 5 * v.toNat)

/-- LD_F: I takes the font address of V[x] (R213). -/
def execLdF (x : Reg) (s : State) : Host.Outcome State Fault Refusal :=
  .next (s.setI (glyphAddress (s.readV x)))

/-- The hundreds, tens and ones digits of a byte (R215). -/
def bcdDigits (v : Byte) : List Byte := [v / 100#8, v / 10#8 % 10#8, v % 10#8]

/-- Storing bytes from address I on, all or none: MEM_RANGE with the lowest offending address (R64). -/
def State.storeAtI (s : State) (bs : List Byte) : State :=
  match memWriteMany s.I.toNat bs s with
  | some t => t
  | none => s.raiseFault .memRange (lowestOffending s.I.toNat)

/-- LD_B: stores the decimal digits of V[x] at I, I+1, I+2 (R215). -/
def execLdB (x : Reg) (s : State) : Host.Outcome State Fault Refusal :=
  .next (s.storeAtI (bcdDigits (s.readV x)))

/-- V0 to Vx, in order (R216). -/
def State.regsUpTo (s : State) (x : Reg) : List Byte := s.v.toList.take (x.toNat + 1)

/-- LD_MEM_VX: stores V0 to Vx from I on (R216). -/
def execLdMemVx (x : Reg) (s : State) : Host.Outcome State Fault Refusal :=
  .next (s.storeAtI (s.regsUpTo x))

/-- Loads bytes into V[k], V[k+1], and so on (R217). -/
def State.loadRegs (s : State) (k : Nat) : List Byte → State
  | [] => s
  | b :: bs => State.loadRegs (s.writeV (BitVec.ofNat 4 k) b) (k + 1) bs

/-- LD_VX_MEM: loads V0 to Vx from I on; MEM_RANGE writes no register (R217). -/
def execLdVxMem (x : Reg) (s : State) : Host.Outcome State Fault Refusal :=
  match memReadMany s.I.toNat (x.toNat + 1) s with
  | some bs => .next (s.loadRegs 0 bs)
  | none => .next (s.raiseFault .memRange (lowestOffending s.I.toNat))

end Sys2Proof.Machine
end

