-- ==== Sys2Proof/Machine/KeypadTimers.lean ====
section
/-! DEFINITION. Keypad and timer instructions (spec 42_keypad_timers.md). The keypad is only read here (R32). -/

namespace Sys2Proof.Machine

/-- A skip on the state of the key V[x] names: KEY_RANGE when V[x] > 15, never masked (R190). `pressed` is the key
state that makes it skip. -/
def State.skipOnKey (s : State) (x : Reg) (pressed : Bool) : State :=
  if h : (s.readV x).toNat < 16 then s.skipIf (s.key[(s.readV x).toNat]'h == pressed)
  else s.raiseFault .keyRange (s.readV x).toNat

/-- SKP: skip if the key is pressed (R191). -/
def execSkp (x : Reg) (s : State) : Host.Outcome State Fault Refusal := .next (s.skipOnKey x true)

/-- SKNP: skip if the key is not pressed (R192). -/
def execSknp (x : Reg) (s : State) : Host.Outcome State Fault Refusal := .next (s.skipOnKey x false)

/-- LD_VX_DT: `V[x] <- DT` (R193). -/
def execLdVxDt (x : Reg) (s : State) : Host.Outcome State Fault Refusal := .next (s.writeV x s.DT)

/-- The lowest pressed key, scanning from 0 upwards (R194). -/
def firstPressed (key : Vector Bool 16) : Option Nat := key.toList.findIdx? id

/-- LD_VX_K: with a key pressed, V[x] takes the lowest pressed index; with none, pc goes back by 2 and the word is
fetched again (R194). -/
def execLdVxK (x : Reg) (s : State) : Host.Outcome State Fault Refusal :=
  match firstPressed s.key with
  | some k => .next (s.writeV x (BitVec.ofNat 8 k))
  | none => .next (s.jumpTo (s.pc - 2#16))

/-- LD_DT_VX: `DT <- V[x]` (R195). -/
def execLdDtVx (x : Reg) (s : State) : Host.Outcome State Fault Refusal := .next (s.setDT (s.readV x))

/-- LD_ST_VX: `ST <- V[x]` (R196). -/
def execLdStVx (x : Reg) (s : State) : Host.Outcome State Fault Refusal := .next (s.setST (s.readV x))

end Sys2Proof.Machine
end

