-- ==== Sys2Proof/Machine/Sequencer.lean ====
section
/-! DEFINITION. The fetch and the instruction cycle (spec 20_memory.md R66; 70_reset_and_hazards.md R321), the boot
(R310 to R312), and the phases of the frame sequence (R320; 60_exceptions.md R271 to R299). -/

namespace Sys2Proof.Machine

/-! ## One instruction cycle (R66, R98, R321) -/

/-- Fetch: IR takes the two bytes at pc, high byte first, and pc moves on by 2; none when `pc + 1` is out of range
(R24, R65, R66, R67). -/
def State.fetch (s : State) : Option State :=
  match memReadMany s.pc.toNat 2 s with
  | some [hi, lo] => some { s with IR := wordOfBytes hi lo, pc := s.pc + 2#16 }
  | _ => none

/-- UNKNOWN: one diagnostic with the word and its address, and no other effect (R98, R265). -/
def execUnknown (s : State) : Host.Outcome State Fault Refusal :=
  .next (s.emit (.diag s.IR (s.pc - 2#16)))

/-- The handler of what the decoder answered (R103). -/
def execDecoded (d : Decoded) (s : State) : Host.Outcome State Fault Refusal :=
  match d with
  | .known i => exec i s
  | .unknown _ => execUnknown s

/-- What follows a cycle: a cycle that raised a fault leaves IR as it was before the cycle and is not counted (R261,
R321; log entry 5); any other is counted (R320). -/
def endCycle (before after : State) : State :=
  if after.FAULT.valid then { after with IR := before.IR }
  else { after with SEQ := { after.SEQ with cycle := after.SEQ.cycle + 1 } }

/-- Applying a function to the next state of an outcome. -/
def mapNext (f : State → State) : Host.Outcome State Fault Refusal → Host.Outcome State Fault Refusal
  | .next t => .next (f t)
  | .fault r => .fault r
  | .refused r => .refused r

/-- `instruction_cycle()` and what the sequencer does after it: fetch, decode, execute, count (R320, R321). -/
def instructionCycle (p : Params) (s : State) : Host.Outcome State Fault Refusal :=
  match s.fetch with
  | none => .next s.raiseFetchFault
  | some t => mapNext (endCycle s) (execDecoded (decode p.sysIsUnknown t.IR) t)

/-! ## Boot (R310 to R312) -/

/-- The state after reset with any FONT parameter: R41 with the font's 80 bytes at 0x050. -/
def State.resetWith (p : Params) : State :=
  { State.reset with mem := Memory.putMany State.reset.mem fontBase (fontBytes p.font) }

/-- The ROM load: the bytes are copied from 0x200 on and frames may run; an unreadable or too long ROM is a load error,
copies nothing, and no frame ever runs (R311, R312). -/
def State.loadRom (s : State) (rom : Option (List Byte)) : State :=
  match rom with
  | none => State.emit { s with boot := .failed } .loadError
  | some bytes =>
    if bytes.length ≤ maxRom then { s with mem := s.mem.putMany progBase bytes, boot := .ready }
    else State.emit { s with boot := .failed } .loadError

/-- The ROM is delivered once, before the first frame (R42, R311); any other delivery does nothing (log entry 3). -/
def State.deliverRom (s : State) (rom : Option (List Byte)) : State :=
  match s.boot with
  | .awaitRom => s.loadRom rom
  | .ready => s
  | .failed => s

/-! ## The phases (R320) -/

/-- `phase <- ph`. -/
def State.setPhase (s : State) (ph : Phase) : State := { s with SEQ := { s.SEQ with phase := ph } }

/-- `frame_start` in IDLE begins a frame; after a load error no frame runs (R42, R310, R312). -/
def State.startFrame (s : State) : State :=
  match s.boot with
  | .failed => s
  | .awaitRom => State.setPhase { s with boot := .ready } .input
  | .ready => s.setPhase .input

/-- One item of what the host does at the inputs (R42). -/
def State.hostInput (s : State) : HostInput → State
  | .rom bytes => s.deliverRom bytes
  | .event e => { s with keyEvents := s.keyEvents ++ [e] }
  | .frameStart => s.startFrame

/-- IDLE: the core keeps all its state until the host does something (R299, R320; log entries 2 and 8). -/
def State.idlePhase (s : State) : State :=
  match s.inbox with
  | [] => s
  | h :: rest => State.hostInput { s with inbox := rest } h

/-- One event of the INPUT phase (R290). -/
def State.applyEvent (s : State) : HostEvent → State
  | .key k down => { s with key := s.key.set k.val down k.isLt }
  | .quit => { s with SEQ := { s.SEQ with quit := true } }

/-- INPUT: every queued event in arrival order; then HALTED if quit was sampled, else EXEC with cycle = 0 (R271, R290,
R291, R320). -/
def State.inputPhase (s : State) : State :=
  let t := s.keyEvents.foldl State.applyEvent { s with keyEvents := [] }
  if t.SEQ.quit then t.setPhase .halted
  else { t with SEQ := { t.SEQ with phase := .exec, cycle := 0 } }

/-- AUDIO: a command is sent only on a crossing of ST between 0 and nonzero (R283). -/
def State.audioPhase (s : State) : State :=
  let want := s.ST != 0#8
  let t :=
    if want && !s.audioActive then State.emit { s with audioActive := true } .audioStart
    else if !want && s.audioActive then State.emit { s with audioActive := false } .audioStop
    else s
  t.setPhase .timers

/-- A timer's tick: one less, floored at 0 (R280). -/
def tick (b : Byte) : Byte := if b.toNat > 0 then b - 1#8 else b

/-- TIMERS: DT and ST tick (R280). -/
def State.timersPhase (s : State) : State :=
  ((s.setDT (tick s.DT)).setST (tick s.ST)).setPhase .render

/-- The Frame payload: bit `y * 64 + x` is `fb[y][x]`, rows in order, row 0 lowest (R296). -/
def framePayload (fb : Framebuffer) : BitVec 2048 :=
  fb.toList.foldr (fun row above => above <<< 64 ||| row.setWidth 2048) 0#2048

/-- RENDER: a copy of the whole framebuffer is sent, and the frame is over (R295, R320). -/
def State.renderPhase (s : State) : State :=
  (s.emit (.frame (framePayload s.fb))).setPhase .idle

/-- EXEC: an instruction cycle while the batch is not complete, then AUDIO (R320). -/
def execPhase (p : Params) (s : State) : Host.Outcome State Fault Refusal :=
  if s.SEQ.cycle < p.cyclesPerFrame then instructionCycle p s else .next (s.setPhase .audio)

/-- One step of the frame sequencer: one host input, one phase, or one instruction cycle (R17, R320; log entry 8). A halted
core does nothing (R261, R299). -/
def stepWith (p : Params) (s : State) : Host.Outcome State Fault Refusal :=
  match s.SEQ.phase with
  | .idle => .next s.idlePhase
  | .input => .next s.inputPhase
  | .exec => execPhase p s
  | .audio => .next s.audioPhase
  | .timers => .next s.timersPhase
  | .render => .next s.renderPhase
  | .halted => .next s

/-- The audio output: true is the tone, false silence (R284). -/
def State.tone (s : State) : Bool := s.audioActive

/-! ## Placing an instruction where the next cycle fetches it -/

/-- The state with a word at the pc and the sequencer at an instruction cycle: EXEC with the batch not complete, not
halted by a fault or a quit, the boot over, and the pc where two bytes can be fetched (log entry 1). -/
def State.placeWord (s : State) (w : Word) : State :=
  let pc := if s.pc.toNat + 1 < memSize then s.pc else 0x0200#16
  { s with
    pc := pc
    mem := s.mem.putMany pc.toNat (wordBytes w)
    FAULT := FaultRecord.none
    boot := .ready
    SEQ := { phase := .exec
             cycle := if s.SEQ.cycle < Params.standard.cyclesPerFrame then s.SEQ.cycle else 0
             quit := false } }

end Sys2Proof.Machine
end

