-- ==== Sys2Proof/Machine/Step.lean ====
section
/-! DEFINITION. The step of this hardware, and the host's way to run one instruction first. -/

namespace Sys2Proof.Machine

/-- One step with the parameter values this hardware takes (R8, R320). -/
def step : State → Host.Outcome State Fault Refusal := stepWith Params.standard

/-- `s` with an opcode table word stored where the next step fetches it (log entry 1). -/
def State.withFetchWord (s : State) (nbits w : Nat) : State := s.placeWord (tableWord nbits w)

end Sys2Proof.Machine
end

