-- ==== Sys2Proof/Safety.lean ====
section
/-! DEFINITION. What counts as a sound state and a safe run, and the shapes in which the claims say what changed. -/

namespace Sys2Proof.Machine

/-- The relations between fields that every step keeps: memory is canonical (R60), the cycle count stays in its range
(R38), a fault record is present exactly as R37 says (valid with a code of R260, or all clear), a fault or a quit has
halted the core (R261, R271), a halted core has one of the two (R322), and frames run only after the boot, never after a
load error (R311, R312). -/
structure State.Sound (s : State) : Prop where
  memory : s.mem.wf = true
  cycle : s.SEQ.cycle ≤ Params.standard.cyclesPerFrame
  faultHalts : s.FAULT.valid = true → s.SEQ.phase = .halted
  quitHalts : s.SEQ.quit = true → s.SEQ.phase = .halted
  haltedWhy : s.SEQ.phase = .halted → s.FAULT.valid = true ∨ s.SEQ.quit = true
  faultClear : s.FAULT.valid = false → s.FAULT = FaultRecord.none
  faultCode : s.FAULT.valid = true → ∃ c : FaultCause, s.FAULT.cause = c.code
  framesAfterBoot : s.SEQ.phase ≠ .idle → s.boot = .ready

/-- A safe state: no fault was raised (R37). -/
abbrev State.Safe (s : State) : Prop := s.FAULT.valid = false

/-- Under these parameter values the next step is an instruction cycle: EXEC, the batch not complete, no fault recorded
(R320). -/
abbrev State.AtCycleOf (s : State) (p : Params) : Prop :=
  s.SEQ.phase = .exec ∧ s.SEQ.cycle < p.cyclesPerFrame ∧ s.Safe

/-- The next step is an instruction cycle, under the parameter values this hardware takes. -/
abbrev State.AtCycle (s : State) : Prop := s.AtCycleOf Params.standard

/-- The two bytes at pc as an instruction word (R65). -/
def State.wordAtPc (s : State) : Word := wordOfBytes (s.mem.byteAt s.pc.toNat) (s.mem.byteAt (s.pc.toNat + 1))

/-- Both bytes at pc exist (R66). -/
abbrev State.CanFetch (s : State) : Prop := s.pc.toNat + 1 < 4096

/-- The state after a fetch that succeeds: IR holds the word and pc has moved on by 2 (R66). -/
def State.fetched (s : State) : State := { s with IR := s.wordAtPc, pc := s.pc + 2#16 }

/-- From s to t, no register outside `xs` changed, and nothing but registers: no other field of the state, no byte of
memory. -/
def OnlyRegisters (xs : List Reg) (s t : State) : Prop :=
  (∀ j : Reg, j ∉ xs → t.readV j = s.readV j) ∧ { t with v := s.v } = s

/-- From s to t, nothing but pc changed. -/
def OnlyPc (s t : State) : Prop := { t with pc := s.pc } = s

/-- From s to t, nothing changed but the memory bytes at `a` to `a + n - 1`. -/
def OnlyMemory (a n : Nat) (s t : State) : Prop :=
  (∀ c : Nat, c < a ∨ a + n ≤ c → t.mem.byteAt c = s.mem.byteAt c) ∧ { t with mem := s.mem } = s

/-- From s, a state after fetch, to t, the instruction in execution raised a fault with this cause code and info (R261):
FAULT records it with pc_i and the word, the sequencer halts, one Fault message is sent, pc is back at pc_i, and nothing
else changed. -/
def FaultTaken (cause : BitVec 4) (info : Nat) (s t : State) : Prop :=
  t.FAULT = { valid := true, cause := cause, pc := s.pc - 2#16, word := s.IR, info := BitVec.ofNat 16 info } ∧
  t.SEQ = { s.SEQ with phase := .halted } ∧
  t.out = s.out ++ [.fault t.FAULT] ∧
  t.pc = s.pc - 2#16 ∧
  { t with FAULT := s.FAULT, SEQ := s.SEQ, out := s.out, pc := s.pc } = s

/-- Is this message a Frame? -/
def Output.isFrame : Output → Bool
  | .frame _ => true
  | .audioStart => false
  | .audioStop => false
  | .diag _ _ => false
  | .fault _ => false
  | .loadError => false

/-- The level an event of the queue gives keypad slot k, if it is one of k's (R290). -/
def HostEvent.levelFor (k : Fin 16) : HostEvent → Option Bool
  | .key j down => if j = k then some down else none
  | .quit => none

end Sys2Proof.Machine
end

