-- ==== Sys2Proof/Certificates/Slice0/Obligations.lean ====
section
/-! DEFINITION. The statements for the provers. In a statement about `exec`, s is the state after fetch: pc = pc_i + 2
and IR holds the word (00_scope.md R12). -/

open Sys2Proof Sys2Proof.Machine

/-! ## Encoding. The bit patterns are general knowledge in the spec (D1), and the full check of the sub-field is its own
choice (D4). -/

/-- Words of spec 95_test_vectors.md section 2.1, one or more of each family, decode to the instructions listed there. -/
def Obligations.ListedWordsDecode : Prop :=
  decode false 0x0000#16 = .known (.sys 0x000#12) ∧ decode false 0x00E0#16 = .known .cls ∧
  decode false 0x00EE#16 = .known .ret ∧ decode false 0x1ABC#16 = .known (.jp 0xABC#12) ∧
  decode false 0x3A12#16 = .known (.seImm 0xA#4 0x12#8) ∧ decode false 0x5AB0#16 = .known (.seReg 0xA#4 0xB#4) ∧
  decode false 0x8AB4#16 = .known (.addReg 0xA#4 0xB#4) ∧ decode false 0x800E#16 = .known (.shl 0x0#4 0x0#4) ∧
  decode false 0xA123#16 = .known (.ldI 0x123#12) ∧ decode false 0xC3F0#16 = .known (.rnd 0x3#4 0xF0#8) ∧
  decode false 0xD120#16 = .known (.drw 0x1#4 0x2#4 0x0#4) ∧ decode false 0xE1A1#16 = .known (.sknp 0x1#4) ∧
  decode false 0xFF65#16 = .known (.ldVxMem 0xF#4) ∧ decode false 0x5121#16 = .unknown 0x5121#16 ∧
  decode true 0x00E1#16 = .unknown 0x00E1#16

/-- Decoding an instruction's two bytes gives the instruction back, with every operand, and leaves the bytes after it
(R65, R90, R94, R101). The only term shut out is one that is no instruction: SYS with the address of CLS or RET (R95). -/
def Obligations.DecodeInvertsEncode : Prop :=
  ∀ (i : Instr) (rest : List Byte), i.wellFormed = true →
    decodeBytes false (encodeBytes i ++ rest) = some (.known i, rest)

/-- A word that decodes to an instruction, under either value of SYS_IS_UNKNOWN, is that instruction's word, and the
instruction is well formed (R93, R94). -/
def Obligations.EncodeInvertsDecode : Prop :=
  ∀ (sysIsUnknown : Bool) (w : Word) (i : Instr), decode sysIsUnknown w = .known i →
    encode i = w ∧ i.wellFormed = true

/-- The decoder and the rows of the opcode table agree: a word decodes to an instruction of the row it matches, and a
word that matches a row decodes to an instruction of that row, SYS's row read as excluding 0x00E0 and 0x00EE (R95). -/
def Obligations.DecoderAgreesWithTable : Prop :=
  (∀ (w : Word) (i : Instr), decode false w = .known i → w &&& (tableRow i).1 = (tableRow i).2) ∧
  (∀ (w : Word) (i : Instr), w &&& (tableRow i).1 = (tableRow i).2 →
    (tableRow i = (0xF000#16, 0x0000#16) → w ≠ 0x00E0#16 ∧ w ≠ 0x00EE#16) →
    ∃ j : Instr, decode false w = .known j ∧ tableRow j = tableRow i)

/-- Exactly the words R97 lists decode to UNKNOWN, under either value of SYS_IS_UNKNOWN, and UNKNOWN carries its word. The list is
derived by the spec from its decoding function (R94). -/
def Obligations.UnknownWordsAreTheListed : Prop :=
  let listed : Word → Prop := fun w =>
    (fieldFamily w = 0x5#4 ∧ fieldN w ≠ 0x0#4) ∨
    (fieldFamily w = 0x8#4 ∧ fieldN w ∈ [0x8#4, 0x9#4, 0xA#4, 0xB#4, 0xC#4, 0xD#4, 0xF#4]) ∨
    (fieldFamily w = 0x9#4 ∧ fieldN w ≠ 0x0#4) ∨
    (fieldFamily w = 0xE#4 ∧ fieldKK w ∉ [0x9E#8, 0xA1#8]) ∨
    (fieldFamily w = 0xF#4 ∧
      fieldKK w ∉ [0x07#8, 0x0A#8, 0x15#8, 0x18#8, 0x1E#8, 0x29#8, 0x33#8, 0x55#8, 0x65#8])
  ∀ w : Word,
    (decode false w = .unknown w ↔ listed w) ∧
    (decode true w = .unknown w ↔
      listed w ∨ (fieldFamily w = 0x0#4 ∧ w ≠ 0x00E0#16 ∧ w ≠ 0x00EE#16)) ∧
    (∀ (u : Bool) (w' : Word), decode u w = .unknown w' → w' = w)

/-! ## Reset and boot -/

/-- Reset leaves every piece of state at the value of R41's table: memory by address, pc = 0x200, everything else zero,
released, clear or idle. The values besides memory and pc are the spec's own choice (D7), and the boot state, the queues,
the outputs and the draw count are the model's (log entries 2, 3, 6, 7). -/
def Obligations.ResetValuesAreTabulated : Prop :=
  (∀ a : Nat, a < 0x050 ∨ (0x0A0 ≤ a ∧ a < 4096) → State.reset.mem.byteAt a = 0x00#8) ∧
  (∀ (d : Fin 16) (r : Fin 5), State.reset.mem.byteAt (0x050 + 5 * d.val + r.val) = (fontDefault.get d).get r) ∧
  State.reset.pc = 0x0200#16 ∧ (∀ j : Reg, State.reset.readV j = 0x00#8) ∧ State.reset.I = 0x0000#16 ∧
  (∀ k : Fin 16, State.reset.stack.get k = 0x0000#16) ∧ State.reset.sp = 0 ∧
  State.reset.DT = 0x00#8 ∧ State.reset.ST = 0x00#8 ∧ (∀ k : Fin 16, State.reset.key.get k = false) ∧
  (∀ (x : Fin 64) (y : Fin 32), State.reset.fb.pixel x y = false) ∧ State.reset.IR = 0x0000#16 ∧
  State.reset.audioActive = false ∧ State.reset.FAULT = FaultRecord.none ∧
  State.reset.SEQ = { phase := .idle, cycle := 0, quit := false }

/-- Reset with any FONT parameter: the font's bytes stand at 0x050 + 5d + r, every other byte is zero, memory is canonical,
and nothing but memory differs from the reset with the default font, which is the reset itself (R8, R41, R214). -/
def Obligations.ResetPlacesAnyFont : Prop :=
  (∀ (p : Params) (d : Fin 16) (r : Fin 5),
    (State.resetWith p).mem.byteAt (0x050 + 5 * d.val + r.val) = (p.font.get d).get r) ∧
  (∀ (p : Params) (a : Nat), a < 0x050 ∨ 0x0A0 ≤ a → (State.resetWith p).mem.byteAt a = 0x00#8) ∧
  (∀ p : Params, (State.resetWith p).mem.wf = true ∧
    { State.resetWith p with mem := State.reset.mem } = State.reset) ∧
  State.resetWith Params.standard = State.reset

/-- The reset state is sound. -/
def Obligations.ResetIsSound : Prop := State.reset.Sound

/-- The ROM load in IDLE before the first frame (R311, R312): a ROM that is readable and at most 3584 bytes long is copied
from 0x200 on, no other byte and no other state changes, and frames may run; any other ROM is a load error that copies
nothing (a too long ROM as a load error is the spec's own choice, D36). Where the boot stands is the model's state (log
entries 3 and 4). -/
def Obligations.RomLoadCopiesOrFails : Prop :=
  ∀ (s : State) (rom : Option (List Byte)) (rest : List HostInput),
    s.SEQ.phase = .idle → s.boot = .awaitRom → s.inbox = .rom rom :: rest → s.mem.wf = true →
    (∀ bytes : List Byte, rom = some bytes → bytes.length ≤ 3584 →
      ∃ t, step s = .next t ∧ (∀ (k : Nat) (h : k < bytes.length), t.mem.byteAt (0x200 + k) = bytes[k]) ∧
        OnlyMemory 0x200 bytes.length { s with inbox := rest, boot := .ready } t) ∧
    ((rom = none ∨ ∃ bytes : List Byte, rom = some bytes ∧ 3584 < bytes.length) →
      step s = .next { s with inbox := rest, boot := .failed, out := s.out ++ [.loadError] })

/-- After a load error no frame ever runs: every step stays in IDLE, sends nothing and touches neither memory, registers
nor pc (R312). The failed boot is the model's state (log entry 4). -/
def Obligations.LoadErrorRunsNoFrame : Prop :=
  ∀ s t : State, s.SEQ.phase = .idle → s.boot = .failed → step s = .next t →
    { t with inbox := s.inbox, keyEvents := s.keyEvents } = s

/-! ## The step -/

/-- A word placed for the next fetch is the word the next step fetches, at an instruction cycle, under every state; beside
the two bytes and the pc only what an instruction cycle needs is changed. How a word is placed is the model's choice (log
entry 1). -/
def Obligations.PlacedWordIsFetchedNext : Prop :=
  ∀ (s : State) (w : Word), s.mem.wf = true →
    let t := s.withFetchWord 16 w.toNat
    t.AtCycle ∧ t.CanFetch ∧ t.wordAtPc = w ∧ (s.CanFetch → t.pc = s.pc) ∧
    (∀ a : Nat, a < t.pc.toNat ∨ t.pc.toNat + 2 ≤ a → t.mem.byteAt a = s.mem.byteAt a) ∧
    { t with pc := s.pc, mem := s.mem, FAULT := s.FAULT, boot := s.boot, SEQ := s.SEQ } = s

/-- A step at an instruction cycle, under every parameter value, runs the instruction the bytes at pc decode to, on the
state after fetch (R66, R321). A cycle that raised a fault leaves IR as it was (log entry 5); any other is counted (R320). -/
def Obligations.StepRunsDecodedInstruction : Prop :=
  ∀ (p : Params) (s t : State) (i : Instr), s.AtCycleOf p → s.CanFetch →
    decode p.sysIsUnknown s.wordAtPc = .known i → exec i s.fetched = .next t →
    stepWith p s = .next (if t.FAULT.valid then { t with IR := s.IR }
      else { t with SEQ := { t.SEQ with cycle := t.SEQ.cycle + 1 } })

/-- Under every parameter value a word that decodes to UNKNOWN, a 0nnn word under SYS_IS_UNKNOWN = true among them (R121),
moves pc past itself and sends exactly one diagnostic with the word and its address; nothing else changes but IR and the cycle
count (R98; that the fetch's pc + 2 stands, and that the diagnostic holds the address, are the spec's own choices, D22 and
D42). -/
def Obligations.UnknownWordSendsOneDiagnostic : Prop :=
  ∀ (p : Params) (s : State), s.AtCycleOf p → s.CanFetch →
    decode p.sysIsUnknown s.wordAtPc = .unknown s.wordAtPc →
    stepWith p s = .next { s with
      IR := s.wordAtPc
      pc := s.pc + 2#16
      SEQ := { s.SEQ with cycle := s.SEQ.cycle + 1 }
      out := s.out ++ [.diag s.wordAtPc s.pc] }

/-- A fetch past the top of memory raises FETCH_RANGE, code 1: FAULT records pc with word 0, the core halts and sends the
record, and nothing else changes (R66, R260, R261; the codes and the precise halt are the spec's own choice). -/
def Obligations.FetchPastMemoryFaults : Prop :=
  ∀ s : State, s.AtCycle → ¬ s.CanFetch →
    let record : FaultRecord := { valid := true, cause := 1#4, pc := s.pc, word := 0#16, info := s.pc }
    step s = .next { s with
      FAULT := record, SEQ := { s.SEQ with phase := .halted }, out := s.out ++ [.fault record] }

/-- Every fault of every instruction is precise: whatever the cycle was doing, the state after it is the state before it
with FAULT written, the sequencer halted and one Fault message sent, and FAULT holds a code of R260, the cycle's address and
its word (0 for a fetch fault) (R261; the precise halt is the spec's own choice). That IR, too, is back at its value before the
cycle is the model's reading (log entry 5): R261's list does not name it. -/
def Obligations.FaultsArePrecise : Prop :=
  ∀ s t : State, s.AtCycle → step s = .next t → t.FAULT.valid = true →
    t = { s with FAULT := t.FAULT, SEQ := { s.SEQ with phase := .halted }, out := s.out ++ [.fault t.FAULT] } ∧
    (∃ c : FaultCause, t.FAULT.cause = c.code) ∧ t.FAULT.pc = s.pc ∧
    (s.CanFetch → t.FAULT.word = s.wordAtPc) ∧ (¬ s.CanFetch → t.FAULT.word = 0#16)

/-- Only CALL, RET, SKP, SKNP, LD_B, LD_MEM_VX, LD_VX_MEM and DRW with n > 0 write FAULT, each with its one cause of R260
(R263, R264, derived by the spec; the codes are its own choice). -/
def Obligations.OnlyListedInstructionsFault : Prop :=
  ∀ (i : Instr) (s t : State), exec i s = .next t → t.FAULT ≠ s.FAULT →
    ((∃ nnn, i = .call nnn) ∧ t.FAULT.cause = 3#4) ∨
    (i = .ret ∧ t.FAULT.cause = 4#4) ∨
    ((∃ x, i = .skp x ∨ i = .sknp x) ∧ t.FAULT.cause = 5#4) ∨
    (((∃ x, i = .ldB x ∨ i = .ldMemVx x ∨ i = .ldVxMem x) ∨ (∃ x y n, i = .drw x y n ∧ n ≠ 0#4)) ∧
      t.FAULT.cause = 2#4)

/-- Every step answers a next state, under every parameter value: no step ends outside the machine's state. That a fault is
a next state is the model's reading of R261 (log entry 11). -/
def Obligations.EveryStepAnswersNext : Prop :=
  ∀ (p : Params) (s : State), ∃ t, stepWith p s = .next t

/-- Every step keeps a sound state sound. What a sound state is, is read from several rules (State.Sound, Safety.lean); where
the boot stands is the model's state (log entries 3 and 4). -/
def Obligations.StepKeepsSound : Prop :=
  ∀ s t : State, s.Sound → step s = .next t → t.Sound

/-- A halted core does nothing under every parameter value, and a sound core whose FAULT is valid is halted: the record is
written once (R37, R261, R268; the halt is the spec's own choice, D8). -/
def Obligations.HaltedCoreDoesNothing : Prop :=
  (∀ (p : Params) (s : State), s.SEQ.phase = .halted → stepWith p s = .next s) ∧
  (∀ s : State, s.Sound → s.FAULT.valid = true → step s = .next s)

/-- No step sends more than one message, and none takes a message back. -/
def Obligations.StepSendsAtMostOneMessage : Prop :=
  ∀ (p : Params) (s t : State), stepWith p s = .next t → t.out = s.out ∨ ∃ o, t.out = s.out ++ [o]

/-- An instruction changes only the state the spec names for it. A general register only as the destination x, as V0 to Vx of
LD_VX_MEM, or as VF by the six instructions with a flag (R20, R21); pc only by the jumps, CALL and RET, by a skip of 2 more,
by LD_VX_K's 2 less, or back to pc_i by a fault (R23, R261); I only by LD_I, ADD_I and LD_F (R27); the stack and sp only by CALL
and RET (R28); DT only by LD_DT_VX (R30); ST only by LD_ST_VX (R31); memory only by LD_B and LD_MEM_VX (R60); the framebuffer
only by CLS and DRW (R33); FAULT, the sequencer and the outputs only by a fault of the instructions that can raise one (R263);
the draw count only by RND; the keypad (R32), the audio gate (R36), IR, the quit bit, the cycle count, the boot and the host's
queues by none. That LD_MEM_VX and LD_VX_MEM leave I alone (D14), that x = F names VF (D35), that OR, AND and XOR set no flag
(D15) and that faults are precise (D8) are the spec's own choices; the draw count, the boot, the queues and the list of outputs
are the model's (log entries 2, 3, 6, 7). -/
def Obligations.InstructionsWriteOnlyTheirState : Prop :=
  ∀ (i : Instr) (s t : State), exec i s = .next t →
    let faulted : Prop := ∃ (c : FaultCause) (info : Nat), FaultTaken c.code info s t
    (∀ j : Reg, t.readV j ≠ s.readV j →
      (∃ kk, i = .ldImm j kk ∨ i = .addImm j kk ∨ i = .rnd j kk) ∨
      (∃ y, i = .ldReg j y ∨ i = .orReg j y ∨ i = .andReg j y ∨ i = .xorReg j y) ∨
      (∃ y, i = .addReg j y ∨ i = .sub j y ∨ i = .subn j y ∨ i = .shr j y ∨ i = .shl j y) ∨
      i = .ldVxDt j ∨ i = .ldVxK j ∨ (∃ x, i = .ldVxMem x ∧ j.toNat ≤ x.toNat) ∨
      (j = VF ∧ ((∃ x y, i = .addReg x y ∨ i = .sub x y ∨ i = .subn x y ∨ i = .shr x y ∨ i = .shl x y) ∨
        ∃ x y n, i = .drw x y n))) ∧
    (t.pc ≠ s.pc →
      (∃ nnn, i = .jp nnn ∨ i = .call nnn ∨ i = .jpV0 nnn) ∨ i = .ret ∨
      (((∃ x kk, i = .seImm x kk ∨ i = .sneImm x kk) ∨ (∃ x y, i = .seReg x y ∨ i = .sneReg x y) ∨
        ∃ x, i = .skp x ∨ i = .sknp x) ∧ t.pc = s.pc + 2#16) ∨
      ((∃ x, i = .ldVxK x) ∧ t.pc = s.pc - 2#16) ∨ faulted) ∧
    (t.I ≠ s.I → (∃ nnn, i = .ldI nnn) ∨ (∃ x, i = .addI x ∨ i = .ldF x)) ∧
    (t.stack ≠ s.stack → ∃ nnn, i = .call nnn) ∧
    (t.sp ≠ s.sp → (∃ nnn, i = .call nnn) ∨ i = .ret) ∧
    (t.DT ≠ s.DT → ∃ x, i = .ldDtVx x) ∧
    (t.ST ≠ s.ST → ∃ x, i = .ldStVx x) ∧
    (t.mem ≠ s.mem → ∃ x, i = .ldB x ∨ i = .ldMemVx x) ∧
    (t.fb ≠ s.fb → i = .cls ∨ ∃ x y n, i = .drw x y n) ∧
    (t.FAULT ≠ s.FAULT ∨ t.SEQ ≠ s.SEQ ∨ t.out ≠ s.out →
      faulted ∧ ((∃ nnn, i = .call nnn) ∨ i = .ret ∨ (∃ x, i = .skp x ∨ i = .sknp x) ∨
        (∃ x, i = .ldB x ∨ i = .ldMemVx x ∨ i = .ldVxMem x) ∨ ∃ x y n, i = .drw x y n ∧ n ≠ 0#4)) ∧
    (t.draws ≠ s.draws → ∃ x kk, i = .rnd x kk) ∧
    t.key = s.key ∧ t.audioActive = s.audioActive ∧ t.IR = s.IR ∧ t.SEQ.quit = s.SEQ.quit ∧
    t.SEQ.cycle = s.SEQ.cycle ∧ t.boot = s.boot ∧ t.keyEvents = s.keyEvents ∧ t.inbox = s.inbox

/-- Which step may change what, over the whole frame sequence and under every parameter value: the keypad only INPUT (R32);
the audio gate's state only AUDIO (R36); a general register, I, pc, the stack, sp, IR or FAULT only an instruction cycle (R35,
R37); the framebuffer only an instruction cycle of CLS or DRW (R33); DT and ST only TIMERS or an instruction cycle of LD_DT_VX
and of LD_ST_VX (R30, R31, R332, derived by the spec); memory only an instruction cycle or the ROM load in IDLE (R44); the quit
bit only INPUT (R44); the cycle count only INPUT or an instruction cycle (R320; that it keeps its value elsewhere is log entry
12); the draw count only an instruction cycle of RND; the boot and the inbox only IDLE, the event queue only IDLE or INPUT (the
model's own state, log entries 2, 3, 4, 6). The phase and the outputs, which every phase may change, have statements of their
own. -/
def Obligations.StateChangesOnlyInItsPhase : Prop :=
  ∀ (p : Params) (s t : State), stepWith p s = .next t →
    let runs : Instr → Prop := fun i => s.SEQ.phase = .exec ∧ decode p.sysIsUnknown s.wordAtPc = .known i
    (t.key ≠ s.key → s.SEQ.phase = .input) ∧
    (t.audioActive ≠ s.audioActive → s.SEQ.phase = .audio) ∧
    (t.v ≠ s.v ∨ t.I ≠ s.I ∨ t.pc ≠ s.pc ∨ t.stack ≠ s.stack ∨ t.sp ≠ s.sp ∨ t.IR ≠ s.IR ∨ t.FAULT ≠ s.FAULT →
      s.SEQ.phase = .exec) ∧
    (t.fb ≠ s.fb → runs .cls ∨ ∃ x y n, runs (.drw x y n)) ∧
    (t.DT ≠ s.DT → s.SEQ.phase = .timers ∨ ∃ x, runs (.ldDtVx x)) ∧
    (t.ST ≠ s.ST → s.SEQ.phase = .timers ∨ ∃ x, runs (.ldStVx x)) ∧
    (t.mem ≠ s.mem → s.SEQ.phase = .exec ∨
      s.SEQ.phase = .idle ∧ ∃ bytes rest, s.inbox = .rom (some bytes) :: rest) ∧
    (t.SEQ.quit ≠ s.SEQ.quit → s.SEQ.phase = .input) ∧
    (t.SEQ.cycle ≠ s.SEQ.cycle → s.SEQ.phase = .input ∨ s.SEQ.phase = .exec) ∧
    (t.draws ≠ s.draws → ∃ x kk, runs (.rnd x kk)) ∧
    (t.boot ≠ s.boot ∨ t.inbox ≠ s.inbox → s.SEQ.phase = .idle) ∧
    (t.keyEvents ≠ s.keyEvents → s.SEQ.phase = .idle ∨ s.SEQ.phase = .input)

/-- Outside IDLE and INPUT the core learns nothing of what the host queued or is still to do: two states that differ only
there take the same step (R44). -/
def Obligations.HostQueuesDoNotReachTheCore : Prop :=
  ∀ (p : Params) (s t : State) (q : List HostInput) (e : List HostEvent),
    s.SEQ.phase ≠ .idle → s.SEQ.phase ≠ .input → stepWith p s = .next t →
    stepWith p { s with inbox := q, keyEvents := e } = .next { t with inbox := q, keyEvents := e }

/-! ## The frame sequence -/

/-- IDLE: with nothing from the host the core keeps all its state; an event is queued; frame_start begins a frame unless
the load failed, and then does nothing (R312); a ROM delivered when the time for it is over, the ROM already loaded, a frame
begun or the load failed, does nothing; nothing else changes (R42, R299, R320). The model's choices and readings: the host's
actions stand in one list (log entry 2), what a frame_start before the ROM and a late or second ROM do (log entry 3), that a
failed load keeps the core in IDLE (log entry 4), and that the cycle count stands as it was on entering INPUT (log entry 12). -/
def Obligations.IdleWaitsForTheHost : Prop :=
  ∀ (s : State) (rest : List HostInput), s.SEQ.phase = .idle →
    (s.inbox = [] → step s = .next s) ∧
    (∀ e : HostEvent, s.inbox = .event e :: rest →
      step s = .next { s with inbox := rest, keyEvents := s.keyEvents ++ [e] }) ∧
    (s.inbox = .frameStart :: rest → s.boot ≠ .failed →
      step s = .next { s with inbox := rest, boot := .ready, SEQ := { s.SEQ with phase := .input } }) ∧
    (s.inbox = .frameStart :: rest → s.boot = .failed → step s = .next { s with inbox := rest }) ∧
    (∀ rom : Option (List Byte), s.inbox = .rom rom :: rest → s.boot ≠ .awaitRom →
      step s = .next { s with inbox := rest })

/-- INPUT drains every queued event in arrival order: each key ends at the level of its last event or keeps its own, quit is
set by a quit event, a set quit halts the core, else EXEC begins with cycle 0; nothing else changes (R271, R290, R320; that
quit halts before EXEC, and that no event is filtered, are the spec's own choices, D23 and D24). That a quit leaves the cycle
count as it was is the model's reading (log entry 12). -/
def Obligations.InputDrainsEventsInOrder : Prop :=
  ∀ s : State, s.SEQ.phase = .input → ∃ t, step s = .next t ∧
    (∀ k : Fin 16, t.key.get k =
      (s.keyEvents.filterMap (HostEvent.levelFor k)).getLast?.getD (s.key.get k)) ∧
    (t.SEQ.quit = true ↔ s.SEQ.quit = true ∨ HostEvent.quit ∈ s.keyEvents) ∧
    (t.SEQ.quit = true → t.SEQ.phase = .halted ∧ t.SEQ.cycle = s.SEQ.cycle) ∧
    (t.SEQ.quit = false → t.SEQ.phase = .exec ∧ t.SEQ.cycle = 0) ∧
    t.keyEvents = [] ∧ { t with key := s.key, SEQ := s.SEQ, keyEvents := s.keyEvents } = s

/-- When the batch is complete EXEC ends with AUDIO, under every CYCLES_PER_FRAME, and runs no instruction (R320). -/
def Obligations.CompleteBatchGoesToAudio : Prop :=
  ∀ (p : Params) (s : State), s.SEQ.phase = .exec → p.cyclesPerFrame ≤ s.SEQ.cycle →
    stepWith p s = .next { s with SEQ := { s.SEQ with phase := .audio } }

/-- AUDIO: the gate follows ST, and a command is sent only on a crossing between 0 and nonzero (R283). -/
def Obligations.AudioGateIsEdgeTriggered : Prop :=
  ∀ s : State, s.SEQ.phase = .audio → ∃ t, step s = .next t ∧
    (t.audioActive = true ↔ s.ST ≠ 0x00#8) ∧
    (s.ST ≠ 0x00#8 → s.audioActive = false → t.out = s.out ++ [.audioStart]) ∧
    (s.ST = 0x00#8 → s.audioActive = true → t.out = s.out ++ [.audioStop]) ∧
    ((s.ST ≠ 0x00#8 ↔ s.audioActive = true) → t.out = s.out) ∧
    t.SEQ = { s.SEQ with phase := .timers } ∧
    { t with audioActive := s.audioActive, out := s.out, SEQ := s.SEQ } = s

/-- A TIMERS step: both timers go down by one, floored at 0, and nothing else changes but the phase (R280). -/
def Obligations.TimersPhaseTicksBothTimers : Prop :=
  ∀ s : State, s.SEQ.phase = .timers → ∃ t, step s = .next t ∧
    t.DT.toNat = s.DT.toNat - 1 ∧ t.ST.toNat = s.ST.toNat - 1 ∧
    t.SEQ = { s.SEQ with phase := .render } ∧ { t with DT := s.DT, ST := s.ST, SEQ := s.SEQ } = s

/-- RENDER sends one Frame whose bit `y * 64 + x` is `fb[y][x]`, the frame is over, and nothing else changes (R295, R296;
the order of the bits is the spec's own choice). -/
def Obligations.RenderSendsEveryPixel : Prop :=
  ∀ s : State, s.SEQ.phase = .render → ∃ payload : BitVec 2048,
    step s = .next { s with SEQ := { s.SEQ with phase := .idle }, out := s.out ++ [.frame payload] } ∧
    ∀ (x : Fin 64) (y : Fin 32), payload.getLsbD (y.val * 64 + x.val) = s.fb.pixel x y

/-- A frame ends: from INPUT, fifteen steps bring a sound core back to IDLE with exactly one Frame sent, its last message,
or leave it halted with none sent, and no earlier message is taken back (R261, R271, R320). -/
def Obligations.FrameEndsAndSendsOneFrame : Prop :=
  ∀ s : State, s.Sound → s.SEQ.phase = .input → ∃ t, core.run 15 s = .next t ∧ s.out <+: t.out ∧
    ((t.SEQ.phase = .idle ∧ (∃ payload, t.out.getLast? = some (.frame payload)) ∧
        t.out.countP Output.isFrame = s.out.countP Output.isFrame + 1) ∨
      (t.SEQ.phase = .halted ∧ t.out.countP Output.isFrame = s.out.countP Output.isFrame))

/-! ## Control flow -/

/-- SYS does nothing: the state after fetch stands (R121; the no-op meaning is the spec's own choice). -/
def Obligations.SysDoesNothing : Prop :=
  ∀ (nnn : Addr12) (s : State), ∃ t, exec (.sys nnn) s = .next t ∧ t = s

/-- JP loads pc with the address, and JP_V0 with the exact sum of the address and V0; nothing else changes (R122, R129). -/
def Obligations.JumpsLoadThePc : Prop :=
  ∀ (nnn : Addr12) (s : State),
    (∃ t, exec (.jp nnn) s = .next t ∧ t.pc.toNat = nnn.toNat ∧ OnlyPc s t) ∧
    (∃ t, exec (.jpV0 nnn) s = .next t ∧ t.pc.toNat = nnn.toNat + (s.readV 0x0#4).toNat ∧ OnlyPc s t)

/-- The four register skips move pc over one word exactly when their comparison holds; nothing else changes (R125 to R128). -/
def Obligations.SkipsMoveOverOneWord : Prop :=
  ∀ (x y : Reg) (kk : Byte) (s : State),
    (∃ t, exec (.seImm x kk) s = .next t ∧
      t.pc = (if s.readV x = kk then s.pc + 2#16 else s.pc) ∧ OnlyPc s t) ∧
    (∃ t, exec (.sneImm x kk) s = .next t ∧
      t.pc = (if s.readV x ≠ kk then s.pc + 2#16 else s.pc) ∧ OnlyPc s t) ∧
    (∃ t, exec (.seReg x y) s = .next t ∧
      t.pc = (if s.readV x = s.readV y then s.pc + 2#16 else s.pc) ∧ OnlyPc s t) ∧
    (∃ t, exec (.sneReg x y) s = .next t ∧
      t.pc = (if s.readV x ≠ s.readV y then s.pc + 2#16 else s.pc) ∧ OnlyPc s t)

/-- CALL with fewer than 16 addresses on the stack pushes pc and jumps, and no other slot changes; with 16 it raises
STACK_OVERFLOW, code 3, info 16 (R123, R260, R261; the code and the precise halt are the spec's own choice). -/
def Obligations.CallPushesOrOverflows : Prop :=
  ∀ (nnn : Addr12) (s : State),
    (s.sp.val < 16 → ∃ t, exec (.call nnn) s = .next t ∧
      (∀ k : Fin 16, t.stack.get k = if k.val = s.sp.val then s.pc else s.stack.get k) ∧
      t.sp.val = s.sp.val + 1 ∧ t.pc.toNat = nnn.toNat ∧
      { t with stack := s.stack, sp := s.sp, pc := s.pc } = s) ∧
    (s.sp.val = 16 → ∃ t, exec (.call nnn) s = .next t ∧ FaultTaken 3#4 16 s t)

/-- RET with an address on the stack pops it into pc, and every slot keeps its value; with none it raises STACK_UNDERFLOW,
code 4, info 0 (R124, R260, R261; the code, the precise halt and the kept slot are the spec's own choice). -/
def Obligations.RetPopsOrUnderflows : Prop :=
  ∀ s : State,
    (∀ k : Fin 16, s.sp.val = k.val + 1 → ∃ t, exec .ret s = .next t ∧
      t.pc = s.stack.get k ∧ t.sp.val = k.val ∧ { t with pc := s.pc, sp := s.sp } = s) ∧
    (s.sp.val = 0 → ∃ t, exec .ret s = .next t ∧ FaultTaken 4#4 0 s t)

/-- A RET that pops a CALL's entry returns to the instruction after the CALL: whatever ran in between, if it left the stack
and sp as the CALL did (R130, derived by the spec from R123 and R124). -/
def Obligations.RetReturnsAfterItsCall : Prop :=
  ∀ (nnn : Addr12) (s t u : State), s.sp.val < 16 → exec (.call nnn) s = .next t →
    u.stack = t.stack → u.sp = t.sp →
    ∃ r, exec .ret u = .next r ∧ r.pc = s.pc ∧ r.sp = s.sp

/-! ## Registers and arithmetic -/

/-- The loads, ADD_IMM and the logic operations write V[x] with their result and change nothing else: no flag, unless
x = F, which names VF as the destination (R151 to R156; that the logic operations leave VF alone, and that x = F writes it,
are the spec's own choices, D15 and D35). -/
def Obligations.LoadsAndLogicWriteOnlyVx : Prop :=
  ∀ (x y : Reg) (kk : Byte) (s : State),
    (∃ t, exec (.ldImm x kk) s = .next t ∧ t.readV x = kk ∧ OnlyRegisters [x] s t) ∧
    (∃ t, exec (.addImm x kk) s = .next t ∧
      (t.readV x).toNat = ((s.readV x).toNat + kk.toNat) % 256 ∧ OnlyRegisters [x] s t) ∧
    (∃ t, exec (.ldReg x y) s = .next t ∧ t.readV x = s.readV y ∧ OnlyRegisters [x] s t) ∧
    (∃ t, exec (.orReg x y) s = .next t ∧ t.readV x = s.readV x ||| s.readV y ∧ OnlyRegisters [x] s t) ∧
    (∃ t, exec (.andReg x y) s = .next t ∧ t.readV x = s.readV x &&& s.readV y ∧ OnlyRegisters [x] s t) ∧
    (∃ t, exec (.xorReg x y) s = .next t ∧ t.readV x = s.readV x ^^^ s.readV y ∧ OnlyRegisters [x] s t)

/-- ADD_REG: the sum modulo 256, VF = 1 exactly when NO carry occurred, VF written last, so that with x = F it holds the
flag; nothing else changes (R157; that VF is written last is the spec's own choice, D16). -/
def Obligations.AddRegInvertsTheCarry : Prop :=
  ∀ (x y : Reg) (s : State), ∃ t, exec (.addReg x y) s = .next t ∧
    (x ≠ VF → (t.readV x).toNat = ((s.readV x).toNat + (s.readV y).toNat) % 256) ∧
    t.readV VF = (if (s.readV x).toNat + (s.readV y).toNat < 256 then 1#8 else 0#8) ∧
    OnlyRegisters [x, VF] s t

/-- SUB and SUBN: the difference modulo 256, VF = 0 on borrow and 1 otherwise, VF written last; nothing else changes
(R158, R160; that VF is written last is the spec's own choice, D16). -/
def Obligations.SubtractionsClearVfOnBorrow : Prop :=
  ∀ (x y : Reg) (s : State),
    (∃ t, exec (.sub x y) s = .next t ∧
      (x ≠ VF → (t.readV x).toNat = ((s.readV x).toNat + 256 - (s.readV y).toNat) % 256) ∧
      t.readV VF = (if (s.readV x).toNat < (s.readV y).toNat then 0#8 else 1#8) ∧
      OnlyRegisters [x, VF] s t) ∧
    (∃ t, exec (.subn x y) s = .next t ∧
      (x ≠ VF → (t.readV x).toNat = ((s.readV y).toNat + 256 - (s.readV x).toNat) % 256) ∧
      t.readV VF = (if (s.readV y).toNat < (s.readV x).toNat then 0#8 else 1#8) ∧
      OnlyRegisters [x, VF] s t)

/-- SHR and SHL shift V[y] into V[x], VF takes the bit shifted out, V[x] is written last, so that with x = F, VF holds the
result; nothing else changes (R159, R161; the order of the two writes is the spec's own choice, D16). -/
def Obligations.ShiftsReadVy : Prop :=
  ∀ (x y : Reg) (s : State),
    (∃ t, exec (.shr x y) s = .next t ∧ (t.readV x).toNat = (s.readV y).toNat / 2 ∧
      (x ≠ VF → (t.readV VF).toNat = (s.readV y).toNat % 2) ∧ OnlyRegisters [x, VF] s t) ∧
    (∃ t, exec (.shl x y) s = .next t ∧ (t.readV x).toNat = (s.readV y).toNat * 2 % 256 ∧
      (x ≠ VF → (t.readV VF).toNat = (s.readV y).toNat / 128) ∧ OnlyRegisters [x, VF] s t)

/-- RND: V[x] is the next free byte masked by kk, one draw is taken, and nothing else changes (R162). That
the draws are counted in the state is the model's choice (log entry 6). -/
def Obligations.RndMasksOneDraw : Prop :=
  ∀ (x : Reg) (kk : Byte) (s : State), ∃ t, exec (.rnd x kk) s = .next t ∧
    t.readV x = Config.rnd8 s.draws &&& kk ∧ (∀ b : Nat, kk.getLsbD b = false → (t.readV x).getLsbD b = false) ∧
    t.draws = s.draws + 1 ∧ OnlyRegisters [x] { s with draws := s.draws + 1 } t

/-! ## Keypad and timers -/

/-- SKP and SKNP with a key index in range skip on the key's level and change nothing else; with an index above 15 they raise
KEY_RANGE, code 5, with the index as info, and never mask it (R190 to R192, R260, R261; the code and the precise halt are the
spec's own choice). -/
def Obligations.KeySkipsOrRangeFault : Prop :=
  ∀ (x : Reg) (s : State),
    (∀ k : Fin 16, (s.readV x).toNat = k.val →
      (∃ t, exec (.skp x) s = .next t ∧
        t.pc = (if s.key.get k = true then s.pc + 2#16 else s.pc) ∧ OnlyPc s t) ∧
      (∃ t, exec (.sknp x) s = .next t ∧
        t.pc = (if s.key.get k = false then s.pc + 2#16 else s.pc) ∧ OnlyPc s t)) ∧
    (15 < (s.readV x).toNat →
      (∃ t, exec (.skp x) s = .next t ∧ FaultTaken 5#4 (s.readV x).toNat s t) ∧
      (∃ t, exec (.sknp x) s = .next t ∧ FaultTaken 5#4 (s.readV x).toNat s t))

/-- The timer transfers move a byte between V[x] and a timer and change nothing else (R193, R195, R196). -/
def Obligations.TimerTransfersMoveOneByte : Prop :=
  ∀ (x : Reg) (s : State),
    (∃ t, exec (.ldVxDt x) s = .next t ∧ t.readV x = s.DT ∧ OnlyRegisters [x] s t) ∧
    (∃ t, exec (.ldDtVx x) s = .next t ∧ t.DT = s.readV x ∧ { t with DT := s.DT } = s) ∧
    (∃ t, exec (.ldStVx x) s = .next t ∧ t.ST = s.readV x ∧ { t with ST := s.ST } = s)

/-- LD_VX_K: the lowest pressed key's index goes to V[x]; with no key pressed pc goes back by 2 and nothing else changes
(R194). -/
def Obligations.WaitForKeyTakesLowest : Prop :=
  ∀ (x : Reg) (s : State),
    (∀ k : Fin 16, s.key.get k = true → (∀ j : Fin 16, j < k → s.key.get j = false) →
      ∃ t, exec (.ldVxK x) s = .next t ∧ (t.readV x).toNat = k.val ∧ OnlyRegisters [x] s t) ∧
    ((∀ k : Fin 16, s.key.get k = false) →
      ∃ t, exec (.ldVxK x) s = .next t ∧ t.pc = s.pc - 2#16 ∧ OnlyPc s t)

/-! ## Index register and memory -/

/-- LD_I loads I with the address and ADD_I adds V[x] to I modulo 2^16, with no flag and no clamping; nothing else changes
(R211, from general knowledge in the spec; R212, whose 16-bit wrap is the spec's own choice). -/
def Obligations.IndexLoadsAndAdds : Prop :=
  ∀ (nnn : Addr12) (x : Reg) (s : State),
    (∃ t, exec (.ldI nnn) s = .next t ∧ t.I.toNat = nnn.toNat ∧ { t with I := s.I } = s) ∧
    (∃ t, exec (.addI x) s = .next t ∧ t.I.toNat = (s.I.toNat + (s.readV x).toNat) % 65536 ∧ { t with I := s.I } = s)

/-- LD_F: I takes 0x050 + 5 * V[x], exact and not masked; nothing else changes (R213; that V[x] is not masked is
the spec's own choice, D20). -/
def Obligations.FontAddressIsExact : Prop :=
  ∀ (x : Reg) (s : State), ∃ t, exec (.ldF x) s = .next t ∧
    t.I.toNat = 0x050 + 5 * (s.readV x).toNat ∧ { t with I := s.I } = s

/-- LD_B with three bytes in range stores the decimal digits of V[x] at I, I+1 and I+2, and no other byte and no other state
changes; with any address out of range it raises MEM_RANGE, code 2, with the lowest offending address, and stores nothing
(R64, R215, R260, R261; the code, the precise halt and the all-or-nothing check are the spec's own choice). -/
def Obligations.BcdStoresDigitsOrFaults : Prop :=
  ∀ (x : Reg) (s : State), s.mem.wf = true →
    (s.I.toNat + 2 < 4096 → ∃ t, exec (.ldB x) s = .next t ∧
      (t.mem.byteAt s.I.toNat).toNat = (s.readV x).toNat / 100 ∧
      (t.mem.byteAt (s.I.toNat + 1)).toNat = (s.readV x).toNat / 10 % 10 ∧
      (t.mem.byteAt (s.I.toNat + 2)).toNat = (s.readV x).toNat % 10 ∧
      OnlyMemory s.I.toNat 3 s t) ∧
    (4096 ≤ s.I.toNat + 2 → ∃ t, exec (.ldB x) s = .next t ∧ FaultTaken 2#4 (max s.I.toNat 4096) s t)

/-- LD_MEM_VX with its bytes in range stores V0 to Vx from I on, and no other byte and no other state changes (I stays);
else it raises MEM_RANGE and stores nothing (R64, R216, R260, R261; as for LD_B). -/
def Obligations.RegisterDumpStoresOrFaults : Prop :=
  ∀ (x : Reg) (s : State), s.mem.wf = true →
    (s.I.toNat + x.toNat < 4096 → ∃ t, exec (.ldMemVx x) s = .next t ∧
      (∀ k : Reg, k.toNat ≤ x.toNat → t.mem.byteAt (s.I.toNat + k.toNat) = s.readV k) ∧
      OnlyMemory s.I.toNat (x.toNat + 1) s t) ∧
    (4096 ≤ s.I.toNat + x.toNat → ∃ t, exec (.ldMemVx x) s = .next t ∧ FaultTaken 2#4 (max s.I.toNat 4096) s t)

/-- LD_VX_MEM with its bytes in range loads V0 to Vx from I on, and the registers above Vx, I, memory and everything else
stay; else it raises MEM_RANGE and loads nothing (R64, R217, R260, R261; as for LD_B). -/
def Obligations.RegisterLoadReadsOrFaults : Prop :=
  ∀ (x : Reg) (s : State),
    (s.I.toNat + x.toNat < 4096 → ∃ t, exec (.ldVxMem x) s = .next t ∧
      (∀ k : Reg, k.toNat ≤ x.toNat → t.readV k = s.mem.byteAt (s.I.toNat + k.toNat)) ∧
      (∀ k : Reg, x.toNat < k.toNat → t.readV k = s.readV k) ∧ { t with v := s.v } = s) ∧
    (4096 ≤ s.I.toNat + x.toNat → ∃ t, exec (.ldVxMem x) s = .next t ∧ FaultTaken 2#4 (max s.I.toNat 4096) s t)

/-- A register dump followed by a register load of the same registers gives the registers back, whatever the registers held
in between, if memory and I were left alone (95_test_vectors.md V.IM-19). -/
def Obligations.DumpThenLoadRestoresRegisters : Prop :=
  ∀ (x : Reg) (s t u : State), s.mem.wf = true → s.I.toNat + x.toNat < 4096 →
    exec (.ldMemVx x) s = .next t → u.mem = t.mem → u.I = t.I →
    ∃ r, exec (.ldVxMem x) u = .next r ∧ ∀ k : Reg, k.toNat ≤ x.toNat → r.readV k = s.readV k

/-- A store is seen by the very next fetch (R76, derived by the spec from R60 and R73): after an LD_B or an LD_MEM_VX with its
bytes in range, the fetch at pc, wherever both its bytes exist, reads high byte first, each of its two bytes the stored one if
its address was stored to, whether one of the two was or both, and else the one memory held before. The byte order is general
knowledge in the spec (D2). -/
def Obligations.StoresAreSeenByTheNextFetch : Prop :=
  ∀ (x : Reg) (s : State), s.mem.wf = true → s.CanFetch →
    (s.I.toNat + 2 < 4096 →
      let after : Nat → Nat := fun a =>
        if a = s.I.toNat then (s.readV x).toNat / 100
        else if a = s.I.toNat + 1 then (s.readV x).toNat / 10 % 10
        else if a = s.I.toNat + 2 then (s.readV x).toNat % 10
        else (s.mem.byteAt a).toNat
      ∃ t u, exec (.ldB x) s = .next t ∧ t.fetch = some u ∧
        u.IR.toNat = after s.pc.toNat * 256 + after (s.pc.toNat + 1) ∧ u.pc = s.pc + 2#16) ∧
    (s.I.toNat + x.toNat < 4096 →
      let after : Nat → Byte := fun a =>
        if s.I.toNat ≤ a ∧ a ≤ s.I.toNat + x.toNat then s.readV (BitVec.ofNat 4 (a - s.I.toNat)) else s.mem.byteAt a
      ∃ t u, exec (.ldMemVx x) s = .next t ∧ t.fetch = some u ∧
        u.IR = after s.pc.toNat ++ after (s.pc.toNat + 1) ∧ u.pc = s.pc + 2#16)

/-! ## Display -/

/-- CLS sets every pixel to 0 and changes nothing else; VF stays (R241). -/
def Obligations.ClsClearsEveryPixel : Prop :=
  ∀ s : State, ∃ t, exec .cls s = .next t ∧ (∀ (px : Fin 64) (py : Fin 32), t.fb.pixel px py = false) ∧
    { t with fb := s.fb } = s

/-- DRW with its rows in range, or with n = 0: each pixel a sprite bit lands on is XORed with the bit, each coordinate wrapped
by itself; every other pixel stays; VF = 1 exactly when a set bit landed on a set pixel, else 0; nothing else changes. Else it
raises MEM_RANGE and draws nothing (R240, R242, R260, R261; the bit order is general knowledge in the spec, n = 0 and the code
are its own choice). -/
def Obligations.DrwXorsWrappedPixelsOrFaults : Prop :=
  ∀ (x y : Reg) (n : Count) (s : State),
    let column : Nat → Fin 64 := fun c => screenColumn ((s.readV x).toNat + c)
    let line : Nat → Fin 32 := fun r => screenRow ((s.readV y).toNat + r)
    let bit : Nat → Nat → Bool := fun r c => (s.mem.byteAt (s.I.toNat + r)).getLsbD (7 - c)
    (n = 0#4 ∨ s.I.toNat + n.toNat ≤ 4096 → ∃ t, exec (.drw x y n) s = .next t ∧
      (∀ r c : Nat, r < n.toNat → c < 8 →
        t.fb.pixel (column c) (line r) = (s.fb.pixel (column c) (line r) ^^ bit r c)) ∧
      (∀ (px : Fin 64) (py : Fin 32), (∀ r c : Nat, r < n.toNat → c < 8 → ¬ (px = column c ∧ py = line r)) →
        t.fb.pixel px py = s.fb.pixel px py) ∧
      ((∃ r c : Nat, r < n.toNat ∧ c < 8 ∧ bit r c = true ∧ s.fb.pixel (column c) (line r) = true) →
        t.readV VF = 1#8) ∧
      ((¬ ∃ r c : Nat, r < n.toNat ∧ c < 8 ∧ bit r c = true ∧ s.fb.pixel (column c) (line r) = true) →
        t.readV VF = 0#8) ∧
      OnlyRegisters [VF] { s with fb := t.fb } t) ∧
    (n ≠ 0#4 → 4096 < s.I.toNat + n.toNat → ∃ t, exec (.drw x y n) s = .next t ∧
      FaultTaken 2#4 (max s.I.toNat 4096) s t)

/-- Drawing the same sprite twice at the same coordinates restores the framebuffer, and the second draw's VF is 1 exactly when
the first turned a pixel from 0 to 1 (R243 (b), derived by the spec from R242). The premise on V[x] and V[y] says that the
coordinates are the same; it matters only where x or y is F. -/
def Obligations.DrawingTwiceRestoresTheScreen : Prop :=
  ∀ (x y : Reg) (n : Count) (s t : State), n = 0#4 ∨ s.I.toNat + n.toNat ≤ 4096 →
    exec (.drw x y n) s = .next t → t.readV x = s.readV x → t.readV y = s.readV y →
    ∃ u, exec (.drw x y n) t = .next u ∧ u.fb = s.fb ∧
      (u.readV VF = 1#8 ↔ ∃ (px : Fin 64) (py : Fin 32), s.fb.pixel px py = false ∧ t.fb.pixel px py = true) ∧
      (u.readV VF = 0#8 ∨ u.readV VF = 1#8)

/-- After CLS a DRW sets VF = 0 (R243 (a), derived by the spec from R242). -/
def Obligations.DrwAfterClsSetsNoCollision : Prop :=
  ∀ (x y : Reg) (n : Count) (s t : State), exec .cls s = .next t → n = 0#4 ∨ s.I.toNat + n.toNat ≤ 4096 →
    ∃ u, exec (.drw x y n) t = .next u ∧ u.readV VF = 0#8

/-- With V[x] = 60 the eight columns of a sprite row are 60, 61, 62, 63, 0, 1, 2, 3 (R243 (c), derived by the spec from R242):
a full row byte drawn on a clear screen sets exactly those pixels of its row. -/
def Obligations.SpriteAtColumn60Wraps : Prop :=
  ∀ (x y : Reg) (s : State), (∀ (px : Fin 64) (py : Fin 32), s.fb.pixel px py = false) →
    s.I.toNat < 4096 → s.mem.byteAt s.I.toNat = 0xFF#8 → s.readV x = 60#8 →
    ∃ t, exec (.drw x y 1#4) s = .next t ∧
      ∀ (px : Fin 64) (py : Fin 32), t.fb.pixel px py = true ↔
        py = screenRow (s.readV y).toNat ∧ (px.val < 4 ∨ 60 ≤ px.val)

/-! ## Registers of the fault record and the font -/

/-- FAULT as one register: valid[52], cause[51:48], pc[47:32], word[31:16], info[15:0] (R40; the layout is the spec's own). -/
def Obligations.FaultRegisterLayout : Prop :=
  ∀ f : FaultRecord, f.bits.getLsbD 52 = f.valid ∧ f.bits.extractLsb' 48 4 = f.cause ∧
    f.bits.extractLsb' 32 16 = f.pc ∧ f.bits.extractLsb' 16 16 = f.word ∧ f.bits.extractLsb' 0 16 = f.info

/-- After reset, LD_F with a hex digit d in V[x] points I at the five row bytes of glyph d of the default font (R214, derived
by the spec from R213 and R41; the bytes are general knowledge in the spec). -/
def Obligations.LdFPointsAtItsGlyph : Prop :=
  ∀ (x : Reg) (d : Fin 16) (r : Fin 5) (s : State), s.mem = State.reset.mem → (s.readV x).toNat = d.val →
    ∃ t, exec (.ldF x) s = .next t ∧ t.mem.byteAt (t.I.toNat + r.val) = (fontDefault.get d).get r
end

