-- ==== Sys2Proof/Laws/State.lean ====
section
/-! SUPPORT. One lemma per field per update of State, and reading a register after writing one. -/

namespace Sys2Proof.Machine

variable (s : State)

/-! ### writeV -/

@[simp] theorem State.writeV_v (x : Reg) (b : Byte) : (s.writeV x b).v = s.v.set x.toNat b x.isLt := rfl
@[simp] theorem State.writeV_I (x : Reg) (b : Byte) : (s.writeV x b).I = s.I := rfl
@[simp] theorem State.writeV_pc (x : Reg) (b : Byte) : (s.writeV x b).pc = s.pc := rfl
@[simp] theorem State.writeV_stack (x : Reg) (b : Byte) : (s.writeV x b).stack = s.stack := rfl
@[simp] theorem State.writeV_sp (x : Reg) (b : Byte) : (s.writeV x b).sp = s.sp := rfl
@[simp] theorem State.writeV_DT (x : Reg) (b : Byte) : (s.writeV x b).DT = s.DT := rfl
@[simp] theorem State.writeV_ST (x : Reg) (b : Byte) : (s.writeV x b).ST = s.ST := rfl
@[simp] theorem State.writeV_key (x : Reg) (b : Byte) : (s.writeV x b).key = s.key := rfl
@[simp] theorem State.writeV_fb (x : Reg) (b : Byte) : (s.writeV x b).fb = s.fb := rfl
@[simp] theorem State.writeV_mem (x : Reg) (b : Byte) : (s.writeV x b).mem = s.mem := rfl
@[simp] theorem State.writeV_IR (x : Reg) (b : Byte) : (s.writeV x b).IR = s.IR := rfl
@[simp] theorem State.writeV_audioActive (x : Reg) (b : Byte) : (s.writeV x b).audioActive = s.audioActive := rfl
@[simp] theorem State.writeV_FAULT (x : Reg) (b : Byte) : (s.writeV x b).FAULT = s.FAULT := rfl
@[simp] theorem State.writeV_SEQ (x : Reg) (b : Byte) : (s.writeV x b).SEQ = s.SEQ := rfl
@[simp] theorem State.writeV_boot (x : Reg) (b : Byte) : (s.writeV x b).boot = s.boot := rfl
@[simp] theorem State.writeV_keyEvents (x : Reg) (b : Byte) : (s.writeV x b).keyEvents = s.keyEvents := rfl
@[simp] theorem State.writeV_inbox (x : Reg) (b : Byte) : (s.writeV x b).inbox = s.inbox := rfl
@[simp] theorem State.writeV_out (x : Reg) (b : Byte) : (s.writeV x b).out = s.out := rfl
@[simp] theorem State.writeV_draws (x : Reg) (b : Byte) : (s.writeV x b).draws = s.draws := rfl

/-! ### setI -/

@[simp] theorem State.setI_v (w : Word) : (s.setI w).v = s.v := rfl
@[simp] theorem State.setI_I (w : Word) : (s.setI w).I = w := rfl
@[simp] theorem State.setI_pc (w : Word) : (s.setI w).pc = s.pc := rfl
@[simp] theorem State.setI_stack (w : Word) : (s.setI w).stack = s.stack := rfl
@[simp] theorem State.setI_sp (w : Word) : (s.setI w).sp = s.sp := rfl
@[simp] theorem State.setI_DT (w : Word) : (s.setI w).DT = s.DT := rfl
@[simp] theorem State.setI_ST (w : Word) : (s.setI w).ST = s.ST := rfl
@[simp] theorem State.setI_key (w : Word) : (s.setI w).key = s.key := rfl
@[simp] theorem State.setI_fb (w : Word) : (s.setI w).fb = s.fb := rfl
@[simp] theorem State.setI_mem (w : Word) : (s.setI w).mem = s.mem := rfl
@[simp] theorem State.setI_IR (w : Word) : (s.setI w).IR = s.IR := rfl
@[simp] theorem State.setI_audioActive (w : Word) : (s.setI w).audioActive = s.audioActive := rfl
@[simp] theorem State.setI_FAULT (w : Word) : (s.setI w).FAULT = s.FAULT := rfl
@[simp] theorem State.setI_SEQ (w : Word) : (s.setI w).SEQ = s.SEQ := rfl
@[simp] theorem State.setI_boot (w : Word) : (s.setI w).boot = s.boot := rfl
@[simp] theorem State.setI_keyEvents (w : Word) : (s.setI w).keyEvents = s.keyEvents := rfl
@[simp] theorem State.setI_inbox (w : Word) : (s.setI w).inbox = s.inbox := rfl
@[simp] theorem State.setI_out (w : Word) : (s.setI w).out = s.out := rfl
@[simp] theorem State.setI_draws (w : Word) : (s.setI w).draws = s.draws := rfl

/-! ### jumpTo -/

@[simp] theorem State.jumpTo_v (w : Word) : (s.jumpTo w).v = s.v := rfl
@[simp] theorem State.jumpTo_I (w : Word) : (s.jumpTo w).I = s.I := rfl
@[simp] theorem State.jumpTo_pc (w : Word) : (s.jumpTo w).pc = w := rfl
@[simp] theorem State.jumpTo_stack (w : Word) : (s.jumpTo w).stack = s.stack := rfl
@[simp] theorem State.jumpTo_sp (w : Word) : (s.jumpTo w).sp = s.sp := rfl
@[simp] theorem State.jumpTo_DT (w : Word) : (s.jumpTo w).DT = s.DT := rfl
@[simp] theorem State.jumpTo_ST (w : Word) : (s.jumpTo w).ST = s.ST := rfl
@[simp] theorem State.jumpTo_key (w : Word) : (s.jumpTo w).key = s.key := rfl
@[simp] theorem State.jumpTo_fb (w : Word) : (s.jumpTo w).fb = s.fb := rfl
@[simp] theorem State.jumpTo_mem (w : Word) : (s.jumpTo w).mem = s.mem := rfl
@[simp] theorem State.jumpTo_IR (w : Word) : (s.jumpTo w).IR = s.IR := rfl
@[simp] theorem State.jumpTo_audioActive (w : Word) : (s.jumpTo w).audioActive = s.audioActive := rfl
@[simp] theorem State.jumpTo_FAULT (w : Word) : (s.jumpTo w).FAULT = s.FAULT := rfl
@[simp] theorem State.jumpTo_SEQ (w : Word) : (s.jumpTo w).SEQ = s.SEQ := rfl
@[simp] theorem State.jumpTo_boot (w : Word) : (s.jumpTo w).boot = s.boot := rfl
@[simp] theorem State.jumpTo_keyEvents (w : Word) : (s.jumpTo w).keyEvents = s.keyEvents := rfl
@[simp] theorem State.jumpTo_inbox (w : Word) : (s.jumpTo w).inbox = s.inbox := rfl
@[simp] theorem State.jumpTo_out (w : Word) : (s.jumpTo w).out = s.out := rfl
@[simp] theorem State.jumpTo_draws (w : Word) : (s.jumpTo w).draws = s.draws := rfl

/-! ### setDT -/

@[simp] theorem State.setDT_v (b : Byte) : (s.setDT b).v = s.v := rfl
@[simp] theorem State.setDT_I (b : Byte) : (s.setDT b).I = s.I := rfl
@[simp] theorem State.setDT_pc (b : Byte) : (s.setDT b).pc = s.pc := rfl
@[simp] theorem State.setDT_stack (b : Byte) : (s.setDT b).stack = s.stack := rfl
@[simp] theorem State.setDT_sp (b : Byte) : (s.setDT b).sp = s.sp := rfl
@[simp] theorem State.setDT_DT (b : Byte) : (s.setDT b).DT = b := rfl
@[simp] theorem State.setDT_ST (b : Byte) : (s.setDT b).ST = s.ST := rfl
@[simp] theorem State.setDT_key (b : Byte) : (s.setDT b).key = s.key := rfl
@[simp] theorem State.setDT_fb (b : Byte) : (s.setDT b).fb = s.fb := rfl
@[simp] theorem State.setDT_mem (b : Byte) : (s.setDT b).mem = s.mem := rfl
@[simp] theorem State.setDT_IR (b : Byte) : (s.setDT b).IR = s.IR := rfl
@[simp] theorem State.setDT_audioActive (b : Byte) : (s.setDT b).audioActive = s.audioActive := rfl
@[simp] theorem State.setDT_FAULT (b : Byte) : (s.setDT b).FAULT = s.FAULT := rfl
@[simp] theorem State.setDT_SEQ (b : Byte) : (s.setDT b).SEQ = s.SEQ := rfl
@[simp] theorem State.setDT_boot (b : Byte) : (s.setDT b).boot = s.boot := rfl
@[simp] theorem State.setDT_keyEvents (b : Byte) : (s.setDT b).keyEvents = s.keyEvents := rfl
@[simp] theorem State.setDT_inbox (b : Byte) : (s.setDT b).inbox = s.inbox := rfl
@[simp] theorem State.setDT_out (b : Byte) : (s.setDT b).out = s.out := rfl
@[simp] theorem State.setDT_draws (b : Byte) : (s.setDT b).draws = s.draws := rfl

/-! ### setST -/

@[simp] theorem State.setST_v (b : Byte) : (s.setST b).v = s.v := rfl
@[simp] theorem State.setST_I (b : Byte) : (s.setST b).I = s.I := rfl
@[simp] theorem State.setST_pc (b : Byte) : (s.setST b).pc = s.pc := rfl
@[simp] theorem State.setST_stack (b : Byte) : (s.setST b).stack = s.stack := rfl
@[simp] theorem State.setST_sp (b : Byte) : (s.setST b).sp = s.sp := rfl
@[simp] theorem State.setST_DT (b : Byte) : (s.setST b).DT = s.DT := rfl
@[simp] theorem State.setST_ST (b : Byte) : (s.setST b).ST = b := rfl
@[simp] theorem State.setST_key (b : Byte) : (s.setST b).key = s.key := rfl
@[simp] theorem State.setST_fb (b : Byte) : (s.setST b).fb = s.fb := rfl
@[simp] theorem State.setST_mem (b : Byte) : (s.setST b).mem = s.mem := rfl
@[simp] theorem State.setST_IR (b : Byte) : (s.setST b).IR = s.IR := rfl
@[simp] theorem State.setST_audioActive (b : Byte) : (s.setST b).audioActive = s.audioActive := rfl
@[simp] theorem State.setST_FAULT (b : Byte) : (s.setST b).FAULT = s.FAULT := rfl
@[simp] theorem State.setST_SEQ (b : Byte) : (s.setST b).SEQ = s.SEQ := rfl
@[simp] theorem State.setST_boot (b : Byte) : (s.setST b).boot = s.boot := rfl
@[simp] theorem State.setST_keyEvents (b : Byte) : (s.setST b).keyEvents = s.keyEvents := rfl
@[simp] theorem State.setST_inbox (b : Byte) : (s.setST b).inbox = s.inbox := rfl
@[simp] theorem State.setST_out (b : Byte) : (s.setST b).out = s.out := rfl
@[simp] theorem State.setST_draws (b : Byte) : (s.setST b).draws = s.draws := rfl

/-! ### setFb -/

@[simp] theorem State.setFb_v (f : Framebuffer) : (s.setFb f).v = s.v := rfl
@[simp] theorem State.setFb_I (f : Framebuffer) : (s.setFb f).I = s.I := rfl
@[simp] theorem State.setFb_pc (f : Framebuffer) : (s.setFb f).pc = s.pc := rfl
@[simp] theorem State.setFb_stack (f : Framebuffer) : (s.setFb f).stack = s.stack := rfl
@[simp] theorem State.setFb_sp (f : Framebuffer) : (s.setFb f).sp = s.sp := rfl
@[simp] theorem State.setFb_DT (f : Framebuffer) : (s.setFb f).DT = s.DT := rfl
@[simp] theorem State.setFb_ST (f : Framebuffer) : (s.setFb f).ST = s.ST := rfl
@[simp] theorem State.setFb_key (f : Framebuffer) : (s.setFb f).key = s.key := rfl
@[simp] theorem State.setFb_fb (f : Framebuffer) : (s.setFb f).fb = f := rfl
@[simp] theorem State.setFb_mem (f : Framebuffer) : (s.setFb f).mem = s.mem := rfl
@[simp] theorem State.setFb_IR (f : Framebuffer) : (s.setFb f).IR = s.IR := rfl
@[simp] theorem State.setFb_audioActive (f : Framebuffer) : (s.setFb f).audioActive = s.audioActive := rfl
@[simp] theorem State.setFb_FAULT (f : Framebuffer) : (s.setFb f).FAULT = s.FAULT := rfl
@[simp] theorem State.setFb_SEQ (f : Framebuffer) : (s.setFb f).SEQ = s.SEQ := rfl
@[simp] theorem State.setFb_boot (f : Framebuffer) : (s.setFb f).boot = s.boot := rfl
@[simp] theorem State.setFb_keyEvents (f : Framebuffer) : (s.setFb f).keyEvents = s.keyEvents := rfl
@[simp] theorem State.setFb_inbox (f : Framebuffer) : (s.setFb f).inbox = s.inbox := rfl
@[simp] theorem State.setFb_out (f : Framebuffer) : (s.setFb f).out = s.out := rfl
@[simp] theorem State.setFb_draws (f : Framebuffer) : (s.setFb f).draws = s.draws := rfl

/-! ### emit -/

@[simp] theorem State.emit_v (o : Output) : (s.emit o).v = s.v := rfl
@[simp] theorem State.emit_I (o : Output) : (s.emit o).I = s.I := rfl
@[simp] theorem State.emit_pc (o : Output) : (s.emit o).pc = s.pc := rfl
@[simp] theorem State.emit_stack (o : Output) : (s.emit o).stack = s.stack := rfl
@[simp] theorem State.emit_sp (o : Output) : (s.emit o).sp = s.sp := rfl
@[simp] theorem State.emit_DT (o : Output) : (s.emit o).DT = s.DT := rfl
@[simp] theorem State.emit_ST (o : Output) : (s.emit o).ST = s.ST := rfl
@[simp] theorem State.emit_key (o : Output) : (s.emit o).key = s.key := rfl
@[simp] theorem State.emit_fb (o : Output) : (s.emit o).fb = s.fb := rfl
@[simp] theorem State.emit_mem (o : Output) : (s.emit o).mem = s.mem := rfl
@[simp] theorem State.emit_IR (o : Output) : (s.emit o).IR = s.IR := rfl
@[simp] theorem State.emit_audioActive (o : Output) : (s.emit o).audioActive = s.audioActive := rfl
@[simp] theorem State.emit_FAULT (o : Output) : (s.emit o).FAULT = s.FAULT := rfl
@[simp] theorem State.emit_SEQ (o : Output) : (s.emit o).SEQ = s.SEQ := rfl
@[simp] theorem State.emit_boot (o : Output) : (s.emit o).boot = s.boot := rfl
@[simp] theorem State.emit_keyEvents (o : Output) : (s.emit o).keyEvents = s.keyEvents := rfl
@[simp] theorem State.emit_inbox (o : Output) : (s.emit o).inbox = s.inbox := rfl
@[simp] theorem State.emit_out (o : Output) : (s.emit o).out = s.out ++ [o] := rfl
@[simp] theorem State.emit_draws (o : Output) : (s.emit o).draws = s.draws := rfl

/-! ### haltWith -/

@[simp] theorem State.haltWith_v (r : FaultRecord) : (s.haltWith r).v = s.v := rfl
@[simp] theorem State.haltWith_I (r : FaultRecord) : (s.haltWith r).I = s.I := rfl
@[simp] theorem State.haltWith_pc (r : FaultRecord) : (s.haltWith r).pc = s.pc := rfl
@[simp] theorem State.haltWith_stack (r : FaultRecord) : (s.haltWith r).stack = s.stack := rfl
@[simp] theorem State.haltWith_sp (r : FaultRecord) : (s.haltWith r).sp = s.sp := rfl
@[simp] theorem State.haltWith_DT (r : FaultRecord) : (s.haltWith r).DT = s.DT := rfl
@[simp] theorem State.haltWith_ST (r : FaultRecord) : (s.haltWith r).ST = s.ST := rfl
@[simp] theorem State.haltWith_key (r : FaultRecord) : (s.haltWith r).key = s.key := rfl
@[simp] theorem State.haltWith_fb (r : FaultRecord) : (s.haltWith r).fb = s.fb := rfl
@[simp] theorem State.haltWith_mem (r : FaultRecord) : (s.haltWith r).mem = s.mem := rfl
@[simp] theorem State.haltWith_IR (r : FaultRecord) : (s.haltWith r).IR = s.IR := rfl
@[simp] theorem State.haltWith_audioActive (r : FaultRecord) : (s.haltWith r).audioActive = s.audioActive := rfl
@[simp] theorem State.haltWith_FAULT (r : FaultRecord) : (s.haltWith r).FAULT = r := rfl
@[simp] theorem State.haltWith_SEQ (r : FaultRecord) : (s.haltWith r).SEQ = { s.SEQ with phase := .halted } := rfl
@[simp] theorem State.haltWith_boot (r : FaultRecord) : (s.haltWith r).boot = s.boot := rfl
@[simp] theorem State.haltWith_keyEvents (r : FaultRecord) : (s.haltWith r).keyEvents = s.keyEvents := rfl
@[simp] theorem State.haltWith_inbox (r : FaultRecord) : (s.haltWith r).inbox = s.inbox := rfl
@[simp] theorem State.haltWith_out (r : FaultRecord) : (s.haltWith r).out = s.out ++ [.fault r] := rfl
@[simp] theorem State.haltWith_draws (r : FaultRecord) : (s.haltWith r).draws = s.draws := rfl

/-! ### setPhase -/

@[simp] theorem State.setPhase_v (ph : Phase) : (s.setPhase ph).v = s.v := rfl
@[simp] theorem State.setPhase_I (ph : Phase) : (s.setPhase ph).I = s.I := rfl
@[simp] theorem State.setPhase_pc (ph : Phase) : (s.setPhase ph).pc = s.pc := rfl
@[simp] theorem State.setPhase_stack (ph : Phase) : (s.setPhase ph).stack = s.stack := rfl
@[simp] theorem State.setPhase_sp (ph : Phase) : (s.setPhase ph).sp = s.sp := rfl
@[simp] theorem State.setPhase_DT (ph : Phase) : (s.setPhase ph).DT = s.DT := rfl
@[simp] theorem State.setPhase_ST (ph : Phase) : (s.setPhase ph).ST = s.ST := rfl
@[simp] theorem State.setPhase_key (ph : Phase) : (s.setPhase ph).key = s.key := rfl
@[simp] theorem State.setPhase_fb (ph : Phase) : (s.setPhase ph).fb = s.fb := rfl
@[simp] theorem State.setPhase_mem (ph : Phase) : (s.setPhase ph).mem = s.mem := rfl
@[simp] theorem State.setPhase_IR (ph : Phase) : (s.setPhase ph).IR = s.IR := rfl
@[simp] theorem State.setPhase_audioActive (ph : Phase) : (s.setPhase ph).audioActive = s.audioActive := rfl
@[simp] theorem State.setPhase_FAULT (ph : Phase) : (s.setPhase ph).FAULT = s.FAULT := rfl
@[simp] theorem State.setPhase_SEQ (ph : Phase) : (s.setPhase ph).SEQ = { s.SEQ with phase := ph } := rfl
@[simp] theorem State.setPhase_boot (ph : Phase) : (s.setPhase ph).boot = s.boot := rfl
@[simp] theorem State.setPhase_keyEvents (ph : Phase) : (s.setPhase ph).keyEvents = s.keyEvents := rfl
@[simp] theorem State.setPhase_inbox (ph : Phase) : (s.setPhase ph).inbox = s.inbox := rfl
@[simp] theorem State.setPhase_out (ph : Phase) : (s.setPhase ph).out = s.out := rfl
@[simp] theorem State.setPhase_draws (ph : Phase) : (s.setPhase ph).draws = s.draws := rfl

/-! ### Registers -/

@[simp] theorem State.readV_writeV_same (x : Reg) (b : Byte) : (s.writeV x b).readV x = b := by
  simp [State.readV]

theorem State.readV_writeV_other {x j : Reg} (b : Byte) (h : j ≠ x) : (s.writeV x b).readV j = s.readV j := by
  have hn : x.toNat ≠ j.toNat := fun e => h (BitVec.eq_of_toNat_eq e.symm)
  simp [State.readV, Vector.getElem_set_ne _ _ hn]

/-- Reading any register after a write. -/
theorem State.readV_writeV (x j : Reg) (b : Byte) :
    (s.writeV x b).readV j = if j = x then b else s.readV j := by
  by_cases h : j = x
  · subst h; simp
  · simp [h, State.readV_writeV_other s b h]

/-- Two states with the same registers, seen one register at a time, have the same register file. -/
theorem State.v_ext {s t : State} (h : ∀ j, s.readV j = t.readV j) : s.v = t.v := by
  apply Vector.ext
  intro i hi
  have := h (BitVec.ofNat 4 i)
  simpa [State.readV, Nat.mod_eq_of_lt hi] using this

/-- `readV` reads nothing but the register file. -/
theorem State.readV_congr {s t : State} (h : s.v = t.v) (j : Reg) : s.readV j = t.readV j := by
  simp [State.readV, h]

end Sys2Proof.Machine
end

