-- ==== Sys2Proof/Laws/Display.lean ====
section
/-! SUPPORT. What one flip, one row and one sprite of DRW do to each pixel and to the collision. -/

namespace Sys2Proof.Machine

/-- A flip inverts its own pixel and no other. -/
theorem Framebuffer.pixel_flip (fb : Framebuffer) (x x' : Fin 64) (y y' : Fin 32) :
    (fb.flip x y).pixel x' y' = (fb.pixel x' y' ^^ decide (x' = x ∧ y' = y)) := by
  by_cases hy : y' = y
  · subst hy
    have hx : (BitVec.ofNat 64 (2 ^ x.val)).getLsbD x'.val = decide (x' = x) := by
      rw [BitVec.getLsbD_ofNat, Nat.testBit_two_pow]
      by_cases h : x' = x
      · simp [h]
      · have : x.val ≠ x'.val := fun e => h (Fin.ext e.symm)
        simp [h, this]
    unfold Framebuffer.pixel Framebuffer.flip
    rw [Vector.get_eq_getElem, Vector.getElem_set_self, BitVec.getLsbD_xor, hx]
    simp only [and_true]
  · have hne : y.val ≠ y'.val := fun e => hy (Fin.ext e.symm)
    simp [Framebuffer.pixel, Framebuffer.flip, Vector.get_eq_getElem, Vector.getElem_set_ne _ _ hne, hy]

/-- Does row byte `b`, drawn at column x0, have a set bit that lands on column px? -/
def rowHit (x0 : Nat) (b : Byte) (px : Fin 64) : Bool :=
  (List.range 8).any fun c => b.getLsbD (7 - c) && decide (px = screenColumn (x0 + c))

/-- Two columns of one sprite row land on different columns of the screen. -/
theorem column_injective {x0 c d : Nat} (hc : c < 8) (hd : d < 8)
    (h : screenColumn (x0 + c) = screenColumn (x0 + d)) : c = d := by
  have := congrArg Fin.val h
  simp only [screenColumn] at this
  omega

/-- Two rows of one sprite land on different rows of the screen. -/
theorem row_injective {y0 c d : Nat} (hc : c < 16) (hd : d < 16)
    (h : screenRow (y0 + c) = screenRow (y0 + d)) : c = d := by
  have := congrArg Fin.val h
  simp only [screenRow] at this
  omega

/-- The fold of `drawPixel` over distinct columns: each pixel it lands on flips once, and the collision is set when one of
those pixels was set before. -/
theorem foldl_drawPixel (x0 : Nat) (py : Fin 32) (b : Byte) : ∀ (l : List Nat) (acc : Framebuffer × Bool),
    l.Nodup → (∀ c ∈ l, c < 8) →
    (∀ px py', (l.foldl (drawPixel x0 py b) acc).1.pixel px py' =
      (acc.1.pixel px py' ^^
        (decide (py' = py) && l.any fun c => b.getLsbD (7 - c) && decide (px = screenColumn (x0 + c))))) ∧
    (l.foldl (drawPixel x0 py b) acc).2 =
      (acc.2 || l.any fun c => b.getLsbD (7 - c) && acc.1.pixel (screenColumn (x0 + c)) py)
  | [], acc, _, _ => by simp
  | c :: l, acc, hn, hl => by
    obtain ⟨hcl, hn⟩ := List.nodup_cons.1 hn
    have hc : c < 8 := hl c (by simp)
    have hl' : ∀ d ∈ l, d < 8 := fun d hd => hl d (by simp [hd])
    obtain ⟨ih1, ih2⟩ := foldl_drawPixel x0 py b l (drawPixel x0 py b acc c) hn hl'
    have key : ∀ d ∈ l, screenColumn (x0 + d) ≠ screenColumn (x0 + c) := fun d hd e =>
      hcl (column_injective (hl' d hd) hc e ▸ hd)
    cases hb : b.getLsbD (7 - c) with
    | false => simpa [drawPixel, hb] using And.intro ih1 ih2
    | true =>
      simp only [List.foldl_cons, List.any_cons, hb, Bool.true_and]
      constructor
      · intro px py'
        rw [ih1]
        simp only [drawPixel, hb, if_true, Framebuffer.pixel_flip]
        by_cases hp : px = screenColumn (x0 + c)
        · have hany : (l.any fun d => b.getLsbD (7 - d) && decide (px = screenColumn (x0 + d))) = false := by
            rw [List.any_eq_false]
            intro d hd
            have hne : px ≠ screenColumn (x0 + d) := hp ▸ (key d hd).symm
            simp [hne]
          rw [hany]
          by_cases hy : py' = py <;> simp [hp, hy]
        · simp [hp]
      · rw [ih2]
        simp only [drawPixel, hb, if_true, Bool.or_assoc]
        congr 2
        rw [Bool.eq_iff_iff, List.any_eq_true, List.any_eq_true]
        refine exists_congr fun d => and_congr_right fun hd => ?_
        rw [Framebuffer.pixel_flip, decide_eq_false (fun e => key d hd e.1), Bool.xor_false]

/-- One sprite row flips exactly the pixels its set bits land on. -/
theorem drawRow_pixel (x0 : Nat) (py : Fin 32) (b : Byte) (acc : Framebuffer × Bool) (px : Fin 64) (py' : Fin 32) :
    (drawRow x0 py b acc).1.pixel px py' = (acc.1.pixel px py' ^^ (decide (py' = py) && rowHit x0 b px)) :=
  (foldl_drawPixel x0 py b (List.range 8) acc List.nodup_range (by simp)).1 px py'

/-- One sprite row collides exactly when a set bit lands on a set pixel. -/
theorem drawRow_collision (x0 : Nat) (py : Fin 32) (b : Byte) (acc : Framebuffer × Bool) :
    (drawRow x0 py b acc).2 =
      (acc.2 || (List.range 8).any fun c => b.getLsbD (7 - c) && acc.1.pixel (screenColumn (x0 + c)) py) :=
  (foldl_drawPixel x0 py b (List.range 8) acc List.nodup_range (by simp)).2

/-- Does a sprite drawn at (x0, y0) have a set bit that lands on pixel (px, py)? -/
def spriteHit (x0 y0 : Nat) : List Byte → Fin 64 → Fin 32 → Bool
  | [], _, _ => false
  | b :: bs, px, py => decide (py = screenRow y0) && rowHit x0 b px || spriteHit x0 (y0 + 1) bs px py

/-- A pixel is hit exactly when it lies on the row of a sprite byte with a set bit on its column. -/
theorem spriteHit_iff (x0 : Nat) (px : Fin 64) (py : Fin 32) : ∀ (bs : List Byte) (y0 : Nat),
    spriteHit x0 y0 bs px py = true ↔
      ∃ k, ∃ h : k < bs.length, py = screenRow (y0 + k) ∧ rowHit x0 bs[k] px = true
  | [], y0 => by simp [spriteHit]
  | b :: bs, y0 => by
    simp only [spriteHit, Bool.or_eq_true, Bool.and_eq_true, decide_eq_true_eq, spriteHit_iff x0 px py bs (y0 + 1)]
    constructor
    · rintro (⟨hy, hr⟩ | ⟨k, h, hy, hr⟩)
      · exact ⟨0, by simp, hy, hr⟩
      · exact ⟨k + 1, by simpa using h, by rw [hy, show y0 + (k + 1) = y0 + 1 + k by omega], by simpa using hr⟩
    · rintro ⟨k, h, hy, hr⟩
      cases k with
      | zero => exact .inl ⟨hy, hr⟩
      | succ k =>
        exact .inr ⟨k, by simpa using h, by rw [hy, show y0 + (k + 1) = y0 + 1 + k by omega], by simpa using hr⟩

/-- The sprite below the first row does not reach that row: a sprite is at most 16 rows high. -/
theorem spriteHit_below {x0 y0 : Nat} {bs : List Byte} (px : Fin 64) (hl : bs.length < 16) :
    spriteHit x0 (y0 + 1) bs px (screenRow y0) = false := by
  rw [Bool.eq_false_iff]
  intro h
  obtain ⟨k, hk, hy, -⟩ := (spriteHit_iff x0 px (screenRow y0) bs (y0 + 1)).1 h
  have := row_injective (y0 := y0) (c := 0) (d := 1 + k) (by omega) (by omega)
    (by rw [Nat.add_zero, hy, show y0 + (1 + k) = y0 + 1 + k by omega])
  omega

/-- A sprite flips exactly the pixels its set bits land on. -/
theorem drawRows_pixel (x0 : Nat) (px : Fin 64) (py : Fin 32) : ∀ (bs : List Byte) (y0 : Nat)
    (acc : Framebuffer × Bool), bs.length ≤ 16 →
    (drawRows x0 y0 bs acc).1.pixel px py = (acc.1.pixel px py ^^ spriteHit x0 y0 bs px py)
  | [], y0, acc, _ => by simp [drawRows, spriteHit]
  | b :: bs, y0, acc, hl => by
    simp only [List.length_cons] at hl
    rw [drawRows, drawRows_pixel x0 px py bs (y0 + 1) _ (by omega), drawRow_pixel, Bool.xor_assoc, spriteHit]
    congr 1
    by_cases hy : py = screenRow y0
    · rw [hy, spriteHit_below px (by omega)]
      simp
    · simp [hy]

/-- A sprite collides exactly when a set bit of one of its rows lands on a pixel that was set before the draw. -/
theorem drawRows_collision (x0 : Nat) : ∀ (bs : List Byte) (y0 : Nat) (acc : Framebuffer × Bool), bs.length ≤ 16 →
    ((drawRows x0 y0 bs acc).2 = true ↔
      acc.2 = true ∨ ∃ k, ∃ h : k < bs.length, ∃ c, c < 8 ∧ bs[k].getLsbD (7 - c) = true ∧
        acc.1.pixel (screenColumn (x0 + c)) (screenRow (y0 + k)) = true)
  | [], y0, acc, _ => by simp [drawRows]
  | b :: bs, y0, acc, hl => by
    simp only [List.length_cons] at hl
    rw [drawRows, drawRows_collision x0 bs (y0 + 1) _ (by omega), drawRow_collision]
    simp only [Bool.or_eq_true, List.any_eq_true, List.mem_range, Bool.and_eq_true, or_assoc]
    refine or_congr_right ?_
    have hrow : ∀ k c, k < bs.length →
        (drawRow x0 (screenRow y0) b acc).1.pixel (screenColumn (x0 + c)) (screenRow (y0 + 1 + k)) =
          acc.1.pixel (screenColumn (x0 + c)) (screenRow (y0 + (k + 1))) := fun k c hk => by
      have hne : screenRow (y0 + (k + 1)) ≠ screenRow y0 := fun e => by
        have := row_injective (y0 := y0) (c := k + 1) (d := 0) (by omega) (by omega) (by rw [e, Nat.add_zero])
        omega
      rw [show y0 + 1 + k = y0 + (k + 1) by omega, drawRow_pixel, decide_eq_false hne, Bool.false_and, Bool.xor_false]
    constructor
    · rintro (⟨c, hc, hb, hp⟩ | ⟨k, hk, c, hc, hb, hp⟩)
      · exact ⟨0, by simp, c, hc, hb, hp⟩
      · exact ⟨k + 1, by simpa using hk, c, hc, by simpa using hb, by rw [← hrow k c hk]; exact hp⟩
    · rintro ⟨k, hk, c, hc, hb, hp⟩
      cases k with
      | zero => exact .inl ⟨c, hc, hb, hp⟩
      | succ k =>
        have hk' : k < bs.length := by simpa using hk
        exact .inr ⟨k, hk', c, hc, by simpa using hb, by rw [hrow k c hk']; exact hp⟩

end Sys2Proof.Machine
end

