-- ==== Sys2Proof/Laws/Memory.lean ====
section
/-! SUPPORT. Memory: reading after writing, the canonical form, and what each access operation answers. -/

namespace Sys2Proof.Machine

/-! ### The canonical form -/

theorem Memory.wfAbove_mono {lo lo' : Nat} (h : lo' ≤ lo) : ∀ {m : Memory}, m.wfAbove lo = true → m.wfAbove lo' = true
  | [], _ => rfl
  | (b, w) :: rest, hw => by
    simp only [Memory.wfAbove, Bool.and_eq_true, decide_eq_true_eq] at hw ⊢
    exact ⟨⟨⟨by omega, hw.1.1.2⟩, hw.1.2⟩, hw.2⟩

/-- A canonical memory lists nothing below its bound, so such an address reads as its reset contents. -/
theorem Memory.byteAt_below : ∀ {m : Memory} {lo a : Nat}, m.wfAbove lo = true → a < lo → m.byteAt a = initialByte a
  | [], _, _, _, _ => rfl
  | (b, w) :: rest, lo, a, hw, ha => by
    simp only [Memory.wfAbove, Bool.and_eq_true, decide_eq_true_eq] at hw
    have hne : b ≠ a := by omega
    simp only [Memory.byteAt, hne, if_false]
    exact Memory.byteAt_below hw.2 (by omega)

theorem Memory.put_wfAbove : ∀ {m : Memory} {lo a : Nat} (v : Byte), m.wfAbove lo = true → lo ≤ a → a < memSize →
    (m.put a v).wfAbove lo = true
  | [], lo, a, v, _, hlo, ha => by
    by_cases hv : v = initialByte a <;> simp [Memory.put, Memory.wfAbove, hv, hlo, ha]
  | (b, w) :: rest, lo, a, v, hw, hlo, ha => by
    have hw' := hw
    simp only [Memory.wfAbove, Bool.and_eq_true, decide_eq_true_eq] at hw'
    obtain ⟨⟨⟨h1, h2⟩, h3⟩, h4⟩ := hw'
    simp only [Memory.put]
    split
    · next hab =>
      split
      · exact hw
      · next hv =>
        simp only [Memory.wfAbove, Bool.and_eq_true, decide_eq_true_eq, bne_iff_ne, ne_eq]
        exact ⟨⟨⟨hlo, ha⟩, hv⟩, ⟨⟨⟨by omega, h2⟩, by simpa using h3⟩, h4⟩⟩
    · split
      · next hab hab' =>
        subst hab'
        split
        · exact Memory.wfAbove_mono (by omega) h4
        · next hv =>
          simp only [Memory.wfAbove, Bool.and_eq_true, decide_eq_true_eq, bne_iff_ne, ne_eq]
          exact ⟨⟨⟨hlo, ha⟩, hv⟩, h4⟩
      · simp only [Memory.wfAbove, Bool.and_eq_true, decide_eq_true_eq]
        exact ⟨⟨⟨h1, h2⟩, h3⟩, Memory.put_wfAbove v h4 (by omega) ha⟩

/-- Setting a byte of an address that exists keeps the canonical form. -/
theorem Memory.put_wf {m : Memory} {a : Nat} (v : Byte) (hw : m.wf = true) (ha : a < memSize) : (m.put a v).wf = true :=
  Memory.put_wfAbove v hw (Nat.zero_le a) ha

/-- Setting consecutive bytes of addresses that exist keeps the canonical form. -/
theorem Memory.putMany_wf : ∀ {bs : List Byte} {m : Memory} {a : Nat}, m.wf = true → a + bs.length ≤ memSize →
    (m.putMany a bs).wf = true
  | [], _, _, hw, _ => hw
  | b :: bs, m, a, hw, ha => by
    simp only [List.length_cons] at ha
    exact Memory.putMany_wf (m := m.put a b) (Memory.put_wf b hw (by omega)) (by omega)

/-! ### Reading after writing -/

theorem Memory.byteAt_put_above : ∀ {m : Memory} {lo a : Nat} (v : Byte), m.wfAbove lo = true → (m.put a v).byteAt a = v
  | [], _, a, v, _ => by
    by_cases hv : v = initialByte a <;> simp [Memory.put, Memory.byteAt, hv]
  | (b, w) :: rest, lo, a, v, hw => by
    have hw' := hw
    simp only [Memory.wfAbove, Bool.and_eq_true, decide_eq_true_eq] at hw'
    simp only [Memory.put]
    split
    · next hab =>
      split
      · next hv =>
        have hne : b ≠ a := by omega
        simp only [Memory.byteAt, hne, if_false, hv]
        exact Memory.byteAt_below hw'.2 (by omega)
      · simp [Memory.byteAt]
    · split
      · next hab =>
        subst hab
        split
        · next hv => rw [hv]; exact Memory.byteAt_below hw'.2 (by omega)
        · simp [Memory.byteAt]
      · next h1 h2 =>
        have hne : b ≠ a := fun e => h2 e.symm
        simp only [Memory.byteAt, hne, if_false]
        exact Memory.byteAt_put_above v hw'.2

/-- A byte reads as what was last put there. -/
theorem Memory.byteAt_put_same {m : Memory} (a : Nat) (v : Byte) (hw : m.wf = true) : (m.put a v).byteAt a = v :=
  Memory.byteAt_put_above v hw

/-- Every other byte reads as before. -/
theorem Memory.byteAt_put_other : ∀ {m : Memory} {a c : Nat} (v : Byte), c ≠ a → (m.put a v).byteAt c = m.byteAt c
  | [], a, c, v, h => by
    have h' : a ≠ c := fun e => h e.symm
    by_cases hv : v = initialByte a <;> simp [Memory.put, Memory.byteAt, hv, h']
  | (b, w) :: rest, a, c, v, h => by
    have h' : a ≠ c := fun e => h e.symm
    simp only [Memory.put]
    split
    · split
      · rfl
      · simp [Memory.byteAt, h']
    · split
      · next hab =>
        subst hab
        split <;> simp [Memory.byteAt, h']
      · simp only [Memory.byteAt, Memory.byteAt_put_other v h]

/-- Bytes outside the stretch that was put read as before. -/
theorem Memory.byteAt_putMany_outside : ∀ {bs : List Byte} {m : Memory} {a c : Nat}, (c < a ∨ a + bs.length ≤ c) →
    (m.putMany a bs).byteAt c = m.byteAt c
  | [], _, _, _, _ => rfl
  | b :: bs, m, a, c, h => by
    simp only [List.length_cons] at h
    simp only [Memory.putMany]
    rw [Memory.byteAt_putMany_outside (by omega), Memory.byteAt_put_other b (by omega)]

/-- Byte k of the stretch that was put reads as element k. -/
theorem Memory.byteAt_putMany_inside : ∀ {bs : List Byte} {m : Memory} {a : Nat}, m.wf = true →
    a + bs.length ≤ memSize → ∀ k (hk : k < bs.length), (m.putMany a bs).byteAt (a + k) = bs[k]
  | b :: bs, m, a, hw, ha, k, hk => by
    simp only [List.length_cons] at ha hk
    simp only [Memory.putMany]
    cases k with
    | zero =>
      rw [Memory.byteAt_putMany_outside (by omega)]
      simpa using Memory.byteAt_put_same a b hw
    | succ k =>
      have := Memory.byteAt_putMany_inside (bs := bs) (m := m.put a b) (Memory.put_wf b hw (by omega)) (a := a + 1) (by omega) k (by omega)
      rw [show a + (k + 1) = a + 1 + k by omega]
      simpa using this

/-! ### What the access operations answer (R61 to R64) -/

/-- The bytes of a stretch of memory. -/
def Memory.bytes (m : Memory) (a n : Nat) : List Byte := (List.range n).map fun k => m.byteAt (a + k)

theorem Memory.bytes_succ (m : Memory) (a n : Nat) : m.bytes a (n + 1) = m.byteAt a :: m.bytes (a + 1) n := by
  simp only [Memory.bytes, List.range_succ_eq_map, List.map_cons, Nat.add_zero, List.map_map]
  congr 1
  apply List.map_congr_left
  intro k _
  simp [Nat.add_comm, Nat.add_left_comm]

@[simp] theorem Memory.bytes_length (m : Memory) (a n : Nat) : (m.bytes a n).length = n := by simp [Memory.bytes]

/-- Reading consecutive bytes answers all of them exactly when the last address exists. -/
theorem memReadMany_eq (s : State) : ∀ (n a : Nat), memReadMany a n s =
    if n = 0 ∨ a + n ≤ memSize then some (s.mem.bytes a n) else none
  | 0, _ => by simp [memReadMany, Memory.bytes]
  | n + 1, a => by
    rw [memReadMany, memReadMany_eq s n (a + 1), Memory.bytes_succ]
    unfold memRead
    by_cases h : a + (n + 1) ≤ memSize
    · have h1 : a < memSize := by omega
      have h2 : n = 0 ∨ a + 1 + n ≤ memSize := by omega
      simp [h, h1, h2]
    · by_cases h1 : a < memSize
      · have h2 : ¬ (n = 0 ∨ a + 1 + n ≤ memSize) := by omega
        simp [h, h1, h2]
      · simp [h, h1]

/-- Writing consecutive bytes writes all of them exactly when the last address exists. -/
theorem memWriteMany_eq : ∀ (bs : List Byte) (a : Nat) (s : State), memWriteMany a bs s =
    if bs = [] ∨ a + bs.length ≤ memSize then some { s with mem := s.mem.putMany a bs } else none
  | [], _, _ => by simp [memWriteMany, Memory.putMany]
  | b :: bs, a, s => by
    simp only [memWriteMany, memWrite, List.length_cons]
    by_cases h1 : a < memSize
    · simp only [h1, if_true, memWriteMany_eq bs (a + 1)]
      by_cases h : a + (bs.length + 1) ≤ memSize
      · have h2 : bs = [] ∨ a + 1 + bs.length ≤ memSize := by omega
        simp [h, h2, Memory.putMany]
      · have hb : bs ≠ [] := by rintro rfl; simp at h; omega
        have h2 : ¬ (a + 1 + bs.length ≤ memSize) := by omega
        simp [h, h2, hb]
    · have h : ¬ (a + (bs.length + 1) ≤ memSize) := by omega
      simp [h1, h]

end Sys2Proof.Machine
end

