-- ==== Sys2Proof/Laws/Ops.lean ====
section
/-! SUPPORT. One lemma per shared operation: the stack, the skips, raising a fault, fetch, storing at I, and the cases
of a step. -/

namespace Sys2Proof.Machine

variable (s : State)

/-! ### Return stack (R29) -/

theorem State.push_full (w : Word) (h : s.sp = 16) : s.push w = none := by simp [State.push, h]

/-- A push that succeeds fills the slot at sp and counts it. -/
theorem State.push_some {w : Word} {t : State} (h : s.push w = some t) :
    ∃ hs : s.sp.val < 16, t = { s with stack := s.stack.set s.sp.val w hs, sp := ⟨s.sp.val + 1, by omega⟩ } := by
  unfold State.push at h
  split at h
  · exact ⟨‹_›, by simpa using h.symm⟩
  · cases h

theorem State.pop_empty (h : s.sp = 0) : s.pop = none := by simp [State.pop, h]

/-- A pop that succeeds answers the slot below sp and leaves the slots alone. -/
theorem State.pop_some {w : Word} {t : State} (h : s.pop = some (w, t)) :
    ∃ hs : 0 < s.sp.val, w = s.stack[s.sp.val - 1]'(by omega) ∧
      t = { s with sp := ⟨s.sp.val - 1, by omega⟩ } := by
  unfold State.pop at h
  split at h
  · next hs =>
    simp only [Option.some.injEq, Prod.mk.injEq] at h
    exact ⟨hs, h.1.symm, h.2.symm⟩
  · cases h

/-! ### Skips (R120) -/

/-- A skip changes the pc only. -/
theorem State.skipIf_eq (c : Bool) : s.skipIf c = { s with pc := if c then s.pc + 2#16 else s.pc } := by
  cases c <;> rfl

/-- A key index in range skips on that key's level (R190). -/
theorem State.skipOnKey_inRange {x : Reg} {k : Fin 16} (pressed : Bool) (h : (s.readV x).toNat = k.val) :
    s.skipOnKey x pressed = s.skipIf (s.key.get k == pressed) := by
  unfold State.skipOnKey
  rw [dif_pos (by omega)]
  simp [Vector.get_eq_getElem, h]

/-- A key index above 15 raises KEY_RANGE (R190). -/
theorem State.skipOnKey_outOfRange {x : Reg} (pressed : Bool) (h : 15 < (s.readV x).toNat) :
    s.skipOnKey x pressed = s.raiseFault .keyRange (s.readV x).toNat := by
  unfold State.skipOnKey
  rw [dif_neg (by omega)]

/-! ### Faults (R261) -/

/-- Everything raising a fault does to the state after fetch. -/
theorem State.raiseFault_eq (c : FaultCause) (info : Nat) :
    s.raiseFault c info =
      { s with
        pc := s.pc - 2#16
        FAULT := faultRecord c (s.pc - 2#16) s.IR info
        SEQ := { s.SEQ with phase := .halted }
        out := s.out ++ [.fault (faultRecord c (s.pc - 2#16) s.IR info)] } := rfl

@[simp] theorem faultRecord_valid (c : FaultCause) (pc w : Word) (info : Nat) : (faultRecord c pc w info).valid = true := rfl

/-! ### Fetch (R66) -/

/-- Fetch succeeds exactly when both bytes exist, and reads them high byte first. -/
theorem State.fetch_eq : s.fetch =
    if s.pc.toNat + 1 < memSize then
      some { s with
        IR := wordOfBytes (s.mem.byteAt s.pc.toNat) (s.mem.byteAt (s.pc.toNat + 1))
        pc := s.pc + 2#16 }
    else none := by
  unfold State.fetch
  rw [memReadMany_eq]
  by_cases h : s.pc.toNat + 1 < memSize
  · have h2 : s.pc.toNat + 2 ≤ memSize := by omega
    simp only [h, h2, or_true, if_true, Memory.bytes_succ]
    rfl
  · have h2 : ¬ s.pc.toNat + 2 ≤ memSize := by omega
    simp [h, h2]

/-! ### Storing and reading at I (R64) -/

/-- Storing at I writes every byte, or raises MEM_RANGE and writes none. -/
theorem State.storeAtI_eq (bs : List Byte) (h : bs ≠ []) : s.storeAtI bs =
    if s.I.toNat + bs.length ≤ memSize then { s with mem := s.mem.putMany s.I.toNat bs }
    else s.raiseFault .memRange (lowestOffending s.I.toNat) := by
  unfold State.storeAtI
  rw [memWriteMany_eq]
  by_cases h2 : s.I.toNat + bs.length ≤ memSize <;> simp [h, h2]

@[simp] theorem State.regsUpTo_length (x : Reg) : (s.regsUpTo x).length = x.toNat + 1 := by
  have := x.isLt
  simp [State.regsUpTo]
  omega

theorem State.regsUpTo_getElem (x : Reg) (k : Nat) (hk : k < (s.regsUpTo x).length) :
    (s.regsUpTo x)[k] = s.readV (BitVec.ofNat 4 k) := by
  have h16 : k < 16 := by have := x.isLt; simp at hk; omega
  simp [State.regsUpTo, State.readV, Nat.mod_eq_of_lt h16]

/-- Loading registers changes the register file only. -/
theorem State.loadRegs_eq : ∀ (bs : List Byte) (k : Nat) (s : State), s.loadRegs k bs = { s with v := (s.loadRegs k bs).v }
  | [], _, _ => rfl
  | b :: bs, k, s => by
    simp only [State.loadRegs]
    rw [State.loadRegs_eq bs (k + 1) (s.writeV (BitVec.ofNat 4 k) b)]
    rfl

/-- A register outside the loaded stretch reads as before; one inside reads as its byte. -/
theorem State.readV_loadRegs : ∀ (bs : List Byte) (k : Nat) (s : State) (j : Reg), k + bs.length ≤ 16 →
    (s.loadRegs k bs).readV j =
      if h : k ≤ j.toNat ∧ j.toNat < k + bs.length then bs[j.toNat - k]'(by omega) else s.readV j
  | [], k, s, j, _ => by
    have h : ¬ (k ≤ j.toNat ∧ j.toNat < k + ([] : List Byte).length) := by simp
    rw [dif_neg h]
    rfl
  | b :: bs, k, s, j, hl => by
    simp only [List.length_cons] at hl
    simp only [State.loadRegs]
    rw [State.readV_loadRegs bs (k + 1) _ j (by omega), State.readV_writeV]
    have hj : j = BitVec.ofNat 4 k ↔ j.toNat = k := by
      rw [← BitVec.toNat_inj]; simp [Nat.mod_eq_of_lt (show k < 16 by omega)]
    by_cases h1 : j.toNat = k
    · rw [dif_neg (by omega), if_pos (hj.2 h1), dif_pos (by simp; omega)]
      simp [h1]
    · by_cases h2 : k + 1 ≤ j.toNat ∧ j.toNat < k + 1 + bs.length
      · rw [dif_pos h2, dif_pos (by simp; omega)]
        have : j.toNat - k = (j.toNat - (k + 1)) + 1 := by omega
        simp [this]
      · rw [dif_neg h2, if_neg (fun e => h1 (hj.1 e)), dif_neg (by simp; omega)]

/-! ### A step (R320) -/

/-- What the step does in each phase. -/
theorem stepWith_cases (p : Params) {t : State} (h : stepWith p s = .next t) :
    (s.SEQ.phase = .idle ∧ t = s.idlePhase) ∨ (s.SEQ.phase = .input ∧ t = s.inputPhase) ∨
    (s.SEQ.phase = .exec ∧ s.SEQ.cycle < p.cyclesPerFrame ∧ instructionCycle p s = .next t) ∨
    (s.SEQ.phase = .exec ∧ ¬ s.SEQ.cycle < p.cyclesPerFrame ∧ t = s.setPhase .audio) ∨
    (s.SEQ.phase = .audio ∧ t = s.audioPhase) ∨ (s.SEQ.phase = .timers ∧ t = s.timersPhase) ∨
    (s.SEQ.phase = .render ∧ t = s.renderPhase) ∨ (s.SEQ.phase = .halted ∧ t = s) := by
  unfold stepWith at h
  split at h <;> simp_all only [Host.Outcome.next.injEq, execPhase]
  case h_3 =>
    split at h
    · simp_all
    · cases h; simp_all
  all_goals simp

/-- What an instruction cycle does: a fetch fault, or the handler of the decoded word and the end of the cycle. -/
theorem instructionCycle_cases (p : Params) {t : State} (h : instructionCycle p s = .next t) :
    (s.fetch = none ∧ t = s.raiseFetchFault) ∨
    ∃ u r, s.fetch = some u ∧ execDecoded (decode p.sysIsUnknown u.IR) u = .next r ∧ t = endCycle s r := by
  unfold instructionCycle at h
  split at h
  · next hf => exact .inl ⟨hf, by simpa using h.symm⟩
  · next u hf =>
    right
    cases he : execDecoded (decode p.sysIsUnknown u.IR) u with
    | next r => exact ⟨u, r, hf, he, by simpa [he, mapNext] using h.symm⟩
    | fault r => exact nomatch r
    | refused r => simp [he, mapNext] at h

end Sys2Proof.Machine
end

