-- ==== Sys2Proof/Laws/Exec.lean ====
section
/-! SUPPORT. The one law of every instruction's outcome: it raises a fault, or it leaves FAULT, the sequencer and the
outputs alone (R261, R263). -/

namespace Sys2Proof.Machine

/-- A value an instruction answers with: the fault record, the sequencer and the outputs stand, or a fault was raised. -/
def KeepsOrRaises (s t : State) : Prop :=
  (t.FAULT = s.FAULT ∧ t.SEQ = s.SEQ ∧ t.out = s.out) ∨ ∃ c info, t = s.raiseFault c info

theorem skipOnKey_keepsOrRaises (s : State) (x : Reg) (pressed : Bool) : KeepsOrRaises s (s.skipOnKey x pressed) := by
  unfold State.skipOnKey
  split
  · rw [State.skipIf_eq]; exact .inl ⟨rfl, rfl, rfl⟩
  · exact .inr ⟨_, _, rfl⟩

theorem storeAtI_keepsOrRaises (s : State) {bs : List Byte} (h : bs ≠ []) : KeepsOrRaises s (s.storeAtI bs) := by
  rw [State.storeAtI_eq _ _ h]
  split
  · exact .inl ⟨rfl, rfl, rfl⟩
  · exact .inr ⟨_, _, rfl⟩

theorem regsUpTo_ne_nil (s : State) (x : Reg) : s.regsUpTo x ≠ [] :=
  List.ne_nil_of_length_pos (by simp)

/-- Every instruction raises a fault, or leaves FAULT, the sequencer and the outputs alone. -/
theorem exec_keepsOrRaises (i : Instr) (s t : State) (h : exec i s = .next t) : KeepsOrRaises s t := by
  cases i
  case call nnn =>
    simp only [exec, execCall] at h
    split at h <;> cases h
    · next hp => obtain ⟨_, rfl⟩ := s.push_some hp; exact .inl ⟨rfl, rfl, rfl⟩
    · exact .inr ⟨_, _, rfl⟩
  case ret =>
    simp only [exec, execRet] at h
    split at h <;> cases h
    · next hp => obtain ⟨_, rfl, rfl⟩ := s.pop_some hp; exact .inl ⟨rfl, rfl, rfl⟩
    · exact .inr ⟨_, _, rfl⟩
  case skp x => cases h; exact skipOnKey_keepsOrRaises s x true
  case sknp x => cases h; exact skipOnKey_keepsOrRaises s x false
  case ldB x => cases h; exact storeAtI_keepsOrRaises s (by simp [bcdDigits])
  case ldMemVx x => cases h; exact storeAtI_keepsOrRaises s (regsUpTo_ne_nil s x)
  case ldVxMem x =>
    simp only [exec, execLdVxMem] at h
    split at h <;> cases h
    · rw [State.loadRegs_eq]; exact .inl ⟨rfl, rfl, rfl⟩
    · exact .inr ⟨_, _, rfl⟩
  case drw x y n =>
    simp only [exec, execDrw] at h
    split at h <;> cases h
    · exact .inl ⟨rfl, rfl, rfl⟩
    · exact .inr ⟨_, _, rfl⟩
  case ldVxK x =>
    simp only [exec, execLdVxK] at h
    split at h <;> cases h <;> exact .inl ⟨rfl, rfl, rfl⟩
  case seImm | sneImm | seReg | sneReg =>
    simp only [exec, execSeImm, execSneImm, execSeReg, execSneReg, State.skipIf_eq] at h
    cases h; exact .inl ⟨rfl, rfl, rfl⟩
  all_goals cases h; exact .inl ⟨rfl, rfl, rfl⟩

end Sys2Proof.Machine
end

