-- ==== Sys2Proof/Laws/PerInstr.lean ====
section
/-! SUPPORT. Per instruction: its word lies in its own row of spec/opcode_table.json. -/

/-- The word of an instruction, masked by its row's mask, is its row's match (R95, R101). -/
def Sys2Proof.Laws.TableRow.Statement (i : Sys2Proof.Instr) : Prop :=
  Sys2Proof.encode i &&& (Sys2Proof.tableRow i).1 = (Sys2Proof.tableRow i).2

namespace Sys2Proof.Laws.TableRow

theorem and_ones (n : BitVec 4) : n &&& 0xF#4 = n := by revert n; decide

/-- Format A: only the family nibble survives the mask 0xF000. -/
theorem packA_masked (op : BitVec 4) (nnn : Addr12) : packA op nnn &&& 0xF000#16 = op ++ 0#12 := by
  rw [show (0xF000#16) = (0xF#4 ++ 0#12) from rfl]
  exact BitVec.and_append.trans (by rw [and_ones, BitVec.and_zero])

/-- Format XK: only the family nibble survives the mask 0xF000. -/
theorem packXK_masked (op : BitVec 4) (x : Reg) (kk : Byte) : packXK op x kk &&& 0xF000#16 = op ++ 0#12 :=
  packA_masked op (x ++ kk)

/-- Format X: the family nibble and the low byte survive the mask 0xF0FF. -/
theorem packX_masked (op : BitVec 4) (x : Reg) (sub : Byte) :
    packXK op x sub &&& 0xF0FF#16 = op ++ (0#4 ++ sub : Addr12) := by
  rw [show (0xF0FF#16) = (0xF#4 ++ (0#4 ++ 0xFF#8 : Addr12) : Word) from rfl]
  refine BitVec.and_append.trans ?_
  rw [and_ones]
  congr 1
  exact BitVec.and_append.trans
    (by rw [BitVec.and_zero, show (0xFF#8) = BitVec.allOnes 8 from rfl, BitVec.and_allOnes])

/-- Format XYN: only the family nibble survives the mask 0xF000. -/
theorem packXYN_masked (op : BitVec 4) (x y : Reg) (n : Count) : packXYN op x y n &&& 0xF000#16 = op ++ 0#12 :=
  packA_masked op (x ++ (y ++ n))

/-- Format XY: the first and the last nibble survive the mask 0xF00F. -/
theorem packXY_masked (op : BitVec 4) (x y : Reg) (sub : BitVec 4) :
    packXYN op x y sub &&& 0xF00F#16 = op ++ (0#4 ++ (0#4 ++ sub) : Addr12) := by
  rw [show (0xF00F#16) = (0xF#4 ++ (0#4 ++ (0#4 ++ 0xF#4) : Addr12) : Word) from rfl]
  refine BitVec.and_append.trans ?_
  rw [and_ones]
  congr 1
  exact BitVec.and_append.trans
    (by rw [BitVec.and_zero]; congr 1; exact BitVec.and_append.trans (by rw [and_ones, BitVec.and_zero]))

theorem cls : Statement (.cls) := rfl
theorem jp (nnn : Addr12) : Statement (.jp nnn) := packA_masked 0x1#4 nnn
theorem call (nnn : Addr12) : Statement (.call nnn) := packA_masked 0x2#4 nnn
theorem ret : Statement (.ret) := rfl
theorem seImm (x : Reg) (kk : Byte) : Statement (.seImm x kk) := packXK_masked 0x3#4 x kk
theorem sneImm (x : Reg) (kk : Byte) : Statement (.sneImm x kk) := packXK_masked 0x4#4 x kk
theorem seReg (x y : Reg) : Statement (.seReg x y) := packXY_masked 0x5#4 x y 0x0#4
theorem sneReg (x y : Reg) : Statement (.sneReg x y) := packXY_masked 0x9#4 x y 0x0#4
theorem ldImm (x : Reg) (kk : Byte) : Statement (.ldImm x kk) := packXK_masked 0x6#4 x kk
theorem ldReg (x y : Reg) : Statement (.ldReg x y) := packXY_masked 0x8#4 x y 0x0#4
theorem addImm (x : Reg) (kk : Byte) : Statement (.addImm x kk) := packXK_masked 0x7#4 x kk
theorem orReg (x y : Reg) : Statement (.orReg x y) := packXY_masked 0x8#4 x y 0x1#4
theorem andReg (x y : Reg) : Statement (.andReg x y) := packXY_masked 0x8#4 x y 0x2#4
theorem xorReg (x y : Reg) : Statement (.xorReg x y) := packXY_masked 0x8#4 x y 0x3#4
theorem addReg (x y : Reg) : Statement (.addReg x y) := packXY_masked 0x8#4 x y 0x4#4
theorem sub (x y : Reg) : Statement (.sub x y) := packXY_masked 0x8#4 x y 0x5#4
theorem shr (x y : Reg) : Statement (.shr x y) := packXY_masked 0x8#4 x y 0x6#4
theorem subn (x y : Reg) : Statement (.subn x y) := packXY_masked 0x8#4 x y 0x7#4
theorem shl (x y : Reg) : Statement (.shl x y) := packXY_masked 0x8#4 x y 0xE#4
theorem ldI (nnn : Addr12) : Statement (.ldI nnn) := packA_masked 0xA#4 nnn
theorem jpV0 (nnn : Addr12) : Statement (.jpV0 nnn) := packA_masked 0xB#4 nnn
theorem rnd (x : Reg) (kk : Byte) : Statement (.rnd x kk) := packXK_masked 0xC#4 x kk
theorem drw (x y : Reg) (n : Count) : Statement (.drw x y n) := packXYN_masked 0xD#4 x y n
theorem skp (x : Reg) : Statement (.skp x) := packX_masked 0xE#4 x 0x9E#8
theorem sknp (x : Reg) : Statement (.sknp x) := packX_masked 0xE#4 x 0xA1#8
theorem ldVxDt (x : Reg) : Statement (.ldVxDt x) := packX_masked 0xF#4 x 0x07#8
theorem ldVxK (x : Reg) : Statement (.ldVxK x) := packX_masked 0xF#4 x 0x0A#8
theorem ldDtVx (x : Reg) : Statement (.ldDtVx x) := packX_masked 0xF#4 x 0x15#8
theorem ldStVx (x : Reg) : Statement (.ldStVx x) := packX_masked 0xF#4 x 0x18#8
theorem addI (x : Reg) : Statement (.addI x) := packX_masked 0xF#4 x 0x1E#8
theorem ldF (x : Reg) : Statement (.ldF x) := packX_masked 0xF#4 x 0x29#8
theorem ldB (x : Reg) : Statement (.ldB x) := packX_masked 0xF#4 x 0x33#8
theorem ldMemVx (x : Reg) : Statement (.ldMemVx x) := packX_masked 0xF#4 x 0x55#8
theorem ldVxMem (x : Reg) : Statement (.ldVxMem x) := packX_masked 0xF#4 x 0x65#8
theorem sys (nnn : Addr12) : Statement (.sys nnn) := packA_masked 0x0#4 nnn

end Sys2Proof.Laws.TableRow
end

