-- ==== Sys2Proof/Tests/Slice0.lean ====
section
/-! SUPPORT. The model's own tests. Every expected value is one of the spec's vectors (95_test_vectors.md, cited by its
name), an example of a rule, or counted by hand from a rule; the decode tests' words are written out bit by bit from the
patterns of 30_encoding.md R94 and R101. The witnesses show states and operands that meet the hypotheses of each
statement of Certificates/Slice0/Obligations.lean. -/

open Sys2Proof Sys2Proof.Machine

namespace Sys2Proof.Tests

/-! ## WellFormed (R95) -/

theorem test_wellFormed_refuses_sys_of_cls : (Instr.sys 0x0E0#12).wellFormed = false := by decide
theorem test_wellFormed_refuses_sys_of_ret : (Instr.sys 0x0EE#12).wellFormed = false := by decide
theorem test_wellFormed_accepts_their_neighbours :
    (Instr.sys 0x0E1#12).wellFormed = true ∧ (Instr.sys 0xFFF#12).wellFormed = true := by decide

/-! ## Decoding: each constructor's word, nibble by nibble (R94, R101) -/

theorem test_decode_family0 :
    decode false 0b0000000011100000#16 = .known .cls ∧
    decode false 0b0000000011101110#16 = .known .ret ∧
    decode false 0b0000000011100001#16 = .known (.sys 0x0E1#12) ∧
    decode false 0b0000111111111111#16 = .known (.sys 0xFFF#12) := by decide

theorem test_decode_jumps :
    decode false 0b0001101010111100#16 = .known (.jp 0xABC#12) ∧
    decode false 0b0010101010111100#16 = .known (.call 0xABC#12) ∧
    decode false 0b1011111111111111#16 = .known (.jpV0 0xFFF#12) := by decide

theorem test_decode_skips :
    decode false 0b0011101000010010#16 = .known (.seImm 0xA#4 0x12#8) ∧
    decode false 0b0100001100010011#16 = .known (.sneImm 0x3#4 0x13#8) ∧
    decode false 0b0101101010110000#16 = .known (.seReg 0xA#4 0xB#4) ∧
    decode false 0b1001101010110000#16 = .known (.sneReg 0xA#4 0xB#4) := by decide

theorem test_decode_loads :
    decode false 0b0110101001000010#16 = .known (.ldImm 0xA#4 0x42#8) ∧
    decode false 0b0111111111111111#16 = .known (.addImm 0xF#4 0xFF#8) ∧
    decode false 0b1100001111110000#16 = .known (.rnd 0x3#4 0xF0#8) := by decide

theorem test_decode_family8 :
    decode false 0b1000101010110000#16 = .known (.ldReg 0xA#4 0xB#4) ∧
    decode false 0b1000101010110001#16 = .known (.orReg 0xA#4 0xB#4) ∧
    decode false 0b1000101010110010#16 = .known (.andReg 0xA#4 0xB#4) ∧
    decode false 0b1000101010110011#16 = .known (.xorReg 0xA#4 0xB#4) ∧
    decode false 0b1000101010110100#16 = .known (.addReg 0xA#4 0xB#4) ∧
    decode false 0b1000101010110101#16 = .known (.sub 0xA#4 0xB#4) ∧
    decode false 0b1000101010110110#16 = .known (.shr 0xA#4 0xB#4) ∧
    decode false 0b1000101010110111#16 = .known (.subn 0xA#4 0xB#4) ∧
    decode false 0b1000101010111110#16 = .known (.shl 0xA#4 0xB#4) := by decide

theorem test_decode_display_and_index :
    decode false 0b1101000100101111#16 = .known (.drw 0x1#4 0x2#4 0xF#4) ∧
    decode false 0b1010000100100011#16 = .known (.ldI 0x123#12) := by decide

theorem test_decode_familyE :
    decode false 0b1110000110011110#16 = .known (.skp 0x1#4) ∧
    decode false 0b1110000110100001#16 = .known (.sknp 0x1#4) := by decide

theorem test_decode_familyF :
    decode false 0b1111001100000111#16 = .known (.ldVxDt 0x3#4) ∧
    decode false 0b1111001100001010#16 = .known (.ldVxK 0x3#4) ∧
    decode false 0b1111001100010101#16 = .known (.ldDtVx 0x3#4) ∧
    decode false 0b1111001100011000#16 = .known (.ldStVx 0x3#4) ∧
    decode false 0b1111001100011110#16 = .known (.addI 0x3#4) ∧
    decode false 0b1111001100101001#16 = .known (.ldF 0x3#4) ∧
    decode false 0b1111001100110011#16 = .known (.ldB 0x3#4) ∧
    decode false 0b1111001101010101#16 = .known (.ldMemVx 0x3#4) ∧
    decode false 0b1111001101100101#16 = .known (.ldVxMem 0x3#4) := by decide

/-- The UNKNOWN words of 95_test_vectors.md section 2.1. -/
theorem test_decode_unknown :
    decode false 0x5121#16 = .unknown 0x5121#16 ∧
    decode false 0x8008#16 = .unknown 0x8008#16 ∧
    decode false 0x800F#16 = .unknown 0x800F#16 ∧
    decode false 0x9001#16 = .unknown 0x9001#16 ∧
    decode false 0xE000#16 = .unknown 0xE000#16 ∧
    decode false 0xE19F#16 = .unknown 0xE19F#16 ∧
    decode false 0xF000#16 = .unknown 0xF000#16 ∧
    decode false 0xF030#16 = .unknown 0xF030#16 ∧
    decode false 0xFFFF#16 = .unknown 0xFFFF#16 := by decide

/-- The words of section 2.1 under SYS_IS_UNKNOWN = true. -/
theorem test_decode_sysIsUnknown :
    decode true 0x0000#16 = .unknown 0x0000#16 ∧
    decode true 0x00E1#16 = .unknown 0x00E1#16 ∧
    decode true 0x0FFF#16 = .unknown 0x0FFF#16 ∧
    decode true 0x00E0#16 = .known .cls ∧ decode true 0x00EE#16 = .known .ret := by decide

/-- The byte at the lower address is the high byte (R65; V.FE-1). -/
theorem test_decodeBytes : decodeBytes false [0x12#8, 0x34#8, 0x99#8] = some (.known (.jp 0x234#12), [0x99#8]) ∧
    encodeBytes (.jp 0x234#12) = [0x12#8, 0x34#8] := by decide

/-! ## One instruction cycle -/

/-- The reset state with these registers written. -/
def regs (l : List (Reg × Byte)) : State := l.foldl (fun s p => s.writeV p.1 p.2) State.reset

/-- The state after one step that runs this word at the state's pc. -/
def after (s : State) (w : Nat) : Option State :=
  match step (s.withFetchWord 16 w) with
  | .next t => some t
  | .fault _ => none
  | .refused _ => none

/-- The state with these bytes written from an address on. -/
def store (a : Nat) (bs : List Byte) (s : State) : State := { s with mem := s.mem.putMany a bs }

/-- V.FE-1 and V.FE-5: the fetch's byte order, and a fetch at an odd pc. -/
theorem test_fetch :
    (after State.reset 0x1234).map (fun t => (t.IR, t.pc)) = some (0x1234#16, 0x234#16) ∧
    (after { State.reset with pc := 0x201#16 } 0x60AA).map (fun t => (t.readV 0x0#4, t.pc)) = some (0xAA#8, 0x203#16) := by
  decide

/-- V.FE-2. -/
theorem test_fetch_last_word :
    (after { State.reset with pc := 0xFFE#16 } 0x00E0).map (fun t => (t.IR, t.pc, t.FAULT.valid)) =
      some (0x00E0#16, 0x1000#16, false) := by decide

/-- V.CF-1. -/
theorem test_sys : (after State.reset 0x0123).map (fun t => (t.pc, t.FAULT.valid, t.out)) = some (0x202#16, false, []) := by
  decide

/-- V.CF-2 and V.CF-3. -/
theorem test_jp : (after State.reset 0x1ABC).map (fun t => t.pc) = some 0xABC#16 ∧
    (after State.reset 0x1200).map (fun t => t.pc) = some 0x200#16 := by decide

/-- V.CF-4. -/
theorem test_call : (after State.reset 0x2400).map (fun t => (t.stack.get 0, t.sp, t.pc)) = some (0x202#16, 1, 0x400#16) := by
  decide

/-- V.CF-5. -/
theorem test_call_overflow : (after { State.reset with sp := 16 } 0x2400).map (fun t => (t.FAULT, t.sp, t.pc, t.SEQ.phase)) =
    some ({ valid := true, cause := 3#4, pc := 0x200#16, word := 0x2400#16, info := 16#16 }, 16, 0x200#16, .halted) := by
  decide

/-- S10: the RET of a CALL made at 0x200. -/
theorem test_ret :
    (after { State.reset with sp := 1, stack := State.reset.stack.set 0 0x202#16, pc := 0x300#16 } 0x00EE).map
      (fun t => (t.pc, t.sp)) = some (0x202#16, 0) := by decide

/-- V.CF-6. -/
theorem test_ret_underflow : (after State.reset 0x00EE).map (fun t => (t.FAULT.cause, t.FAULT.info, t.pc)) =
    some (4#4, 0#16, 0x200#16) := by decide

/-- V.CF-7 and V.CF-8. -/
theorem test_jpV0 : (after (regs [(0x0#4, 0xFF#8)]) 0xBFFF).map (fun t => t.pc) = some 0x10FE#16 ∧
    (after (regs [(0x0#4, 0x10#8), (0x3#4, 0x55#8)]) 0xB300).map (fun t => t.pc) = some 0x310#16 := by decide

/-- V.CF-10 and V.CF-11. -/
theorem test_seImm : (after (regs [(0x3#4, 0x12#8)]) 0x3312).map (fun t => t.pc) = some 0x204#16 ∧
    (after (regs [(0x3#4, 0x12#8)]) 0x3313).map (fun t => t.pc) = some 0x202#16 := by decide

/-- V.CF-12 and V.CF-13. -/
theorem test_sneImm : (after (regs [(0x3#4, 0x12#8)]) 0x4312).map (fun t => t.pc) = some 0x202#16 ∧
    (after (regs [(0x3#4, 0x12#8)]) 0x4313).map (fun t => t.pc) = some 0x204#16 := by decide

/-- V.CF-14, and R127 on unequal registers. -/
theorem test_seReg : (after (regs [(0x1#4, 7#8), (0x2#4, 7#8)]) 0x5120).map (fun t => t.pc) = some 0x204#16 ∧
    (after (regs [(0x1#4, 7#8), (0x2#4, 8#8)]) 0x5120).map (fun t => t.pc) = some 0x202#16 := by decide

/-- V.CF-16 and V.CF-17. -/
theorem test_sneReg : (after (regs [(0x1#4, 7#8), (0x2#4, 8#8)]) 0x9120).map (fun t => t.pc) = some 0x204#16 ∧
    (after (regs [(0x1#4, 7#8)]) 0x9110).map (fun t => t.pc) = some 0x202#16 := by decide

/-- V.AL-1 and V.AL-2. -/
theorem test_ldImm : (after (regs [(VF, 0x55#8)]) 0x6AFF).map (fun t => (t.readV 0xA#4, t.readV VF)) = some (0xFF#8, 0x55#8) ∧
    (after (regs [(VF, 0x55#8)]) 0x6F00).map (fun t => t.readV VF) = some 0x00#8 := by decide

/-- V.AL-3 and V.AL-4. -/
theorem test_addImm :
    (after (regs [(VF, 0x55#8), (0x1#4, 0xFF#8)]) 0x7101).map (fun t => (t.readV 0x1#4, t.readV VF)) = some (0x00#8, 0x55#8) ∧
    (after (regs [(VF, 0x55#8)]) 0x7F01).map (fun t => t.readV VF) = some 0x56#8 := by decide

/-- V.AL-5. -/
theorem test_ldReg : (after (regs [(0x2#4, 0x9C#8)]) 0x8120).map (fun t => (t.readV 0x1#4, t.readV 0x2#4)) =
    some (0x9C#8, 0x9C#8) := by decide

/-- V.AL-6. -/
theorem test_or : (after (regs [(VF, 0x55#8), (0x1#4, 0xF0#8), (0x2#4, 0x3C#8)]) 0x8121).map
    (fun t => (t.readV 0x1#4, t.readV VF)) = some (0xFC#8, 0x55#8) := by decide

/-- V.AL-7. -/
theorem test_and : (after (regs [(VF, 0x55#8), (0x1#4, 0xF0#8), (0x2#4, 0x3C#8)]) 0x8122).map
    (fun t => (t.readV 0x1#4, t.readV VF)) = some (0x30#8, 0x55#8) := by decide

/-- V.AL-8. -/
theorem test_xor : (after (regs [(VF, 0x55#8), (0x1#4, 0xF0#8), (0x2#4, 0x3C#8)]) 0x8123).map
    (fun t => (t.readV 0x1#4, t.readV VF)) = some (0xCC#8, 0x55#8) := by decide

/-- S1 (FF + 01) and V.AL-10: the inverted carry, and the flag written last. -/
theorem test_addReg :
    (after (regs [(0x1#4, 0xFF#8), (0x2#4, 0x01#8)]) 0x8124).map (fun t => (t.readV 0x1#4, t.readV VF)) = some (0x00#8, 0x00#8) ∧
    (after (regs [(VF, 0x10#8), (0x1#4, 0x20#8)]) 0x8F14).map (fun t => t.readV VF) = some 0x01#8 := by decide

/-- V.AL-12: the old VF is the addend. -/
theorem test_addReg_reads_old_vf :
    (after (regs [(0x1#4, 0x01#8), (VF, 0xFF#8)]) 0x81F4).map (fun t => (t.readV 0x1#4, t.readV VF)) = some (0x00#8, 0x00#8) := by
  decide

/-- S2 (00 - 01) and V.AL-14. -/
theorem test_sub :
    (after (regs [(0x1#4, 0x00#8), (0x2#4, 0x01#8)]) 0x8125).map (fun t => (t.readV 0x1#4, t.readV VF)) = some (0xFF#8, 0x00#8) ∧
    (after (regs [(VF, 0x03#8), (0x1#4, 0x05#8)]) 0x8F15).map (fun t => t.readV VF) = some 0x00#8 := by decide

/-- S2 (42 - 42): no borrow when the operands are equal. -/
theorem test_sub_equal :
    (after (regs [(0x1#4, 0x42#8), (0x2#4, 0x42#8)]) 0x8125).map (fun t => (t.readV 0x1#4, t.readV VF)) = some (0x00#8, 0x01#8) := by
  decide

/-- V.AL-15 and V.AL-16. -/
theorem test_subn :
    (after (regs [(0x1#4, 0x03#8), (0x2#4, 0x05#8)]) 0x8127).map (fun t => (t.readV 0x1#4, t.readV VF)) = some (0x02#8, 0x01#8) ∧
    (after (regs [(0x1#4, 0x05#8), (0x2#4, 0x03#8)]) 0x8127).map (fun t => (t.readV 0x1#4, t.readV VF)) = some (0xFE#8, 0x00#8) := by
  decide

/-- S3, with the old value of V1 playing no part, and V.AL-20: VF holds the result. -/
theorem test_shr :
    (after (regs [(0x1#4, 0xFF#8), (0x2#4, 0xB3#8)]) 0x8126).map (fun t => (t.readV 0x1#4, t.readV 0x2#4, t.readV VF)) =
      some (0x59#8, 0xB3#8, 0x01#8) ∧
    (after (regs [(VF, 0x55#8), (0x2#4, 0x02#8)]) 0x8F26).map (fun t => t.readV VF) = some 0x01#8 := by decide

/-- S3 and V.AL-24. -/
theorem test_shl :
    (after (regs [(0x1#4, 0xFF#8), (0x2#4, 0xB3#8)]) 0x812E).map (fun t => (t.readV 0x1#4, t.readV 0x2#4, t.readV VF)) =
      some (0x66#8, 0xB3#8, 0x01#8) ∧
    (after (regs [(VF, 0x55#8), (0x2#4, 0x81#8)]) 0x8F2E).map (fun t => t.readV VF) = some 0x02#8 := by decide

/-- V.AL-26, with the draw left free. -/
theorem test_rnd : (after State.reset 0xC30F).map (fun t => (t.readV 0x3#4, t.draws)) =
    some (Config.rnd8 0 &&& 0x0F#8, 1) := rfl

/-- V.AL-27. -/
theorem test_rnd_zero_mask : (after State.reset 0xC300).map (fun t => t.readV 0x3#4) = some 0x00#8 := by
  have h : (after State.reset 0xC300).map (fun t => t.readV 0x3#4) = some (Config.rnd8 0 &&& 0x00#8) := rfl
  rw [h]; simp

/-- The reset state with these keys pressed. -/
def keys (l : List (Fin 16)) (s : State) : State := { s with key := l.foldl (fun k j => k.set j.val true) s.key }

/-- V.KT-1 and V.KT-2. -/
theorem test_skp : (after (keys [5] (regs [(0x0#4, 5#8)])) 0xE09E).map (fun t => t.pc) = some 0x204#16 ∧
    (after (regs [(0x0#4, 5#8)]) 0xE09E).map (fun t => t.pc) = some 0x202#16 := by decide

/-- V.KT-5. -/
theorem test_skp_range : (after (regs [(0x0#4, 0x10#8)]) 0xE09E).map (fun t => (t.FAULT.cause, t.FAULT.info, t.pc)) =
    some (5#4, 0x10#16, 0x200#16) := by decide

/-- V.KT-3 and V.KT-4. -/
theorem test_sknp : (after (regs [(0x0#4, 5#8)]) 0xE0A1).map (fun t => t.pc) = some 0x204#16 ∧
    (after (keys [5] (regs [(0x0#4, 5#8)])) 0xE0A1).map (fun t => t.pc) = some 0x202#16 := by decide

/-- V.KT-6. -/
theorem test_sknp_range : (after (regs [(0x0#4, 0xFF#8)]) 0xE0A1).map (fun t => (t.FAULT.cause, t.FAULT.info)) =
    some (5#4, 0xFF#16) := by decide

/-- V.KT-12. -/
theorem test_ldVxDt : (after { State.reset with DT := 0x3C#8 } 0xF307).map (fun t => t.readV 0x3#4) = some 0x3C#8 := by decide

/-- S9: the lowest pressed key, and the wait. -/
theorem test_ldVxK : (after (keys [9, 3] State.reset) 0xF50A).map (fun t => (t.readV 0x5#4, t.pc)) = some (0x03#8, 0x202#16) ∧
    (after (regs [(0x5#4, 0x77#8)]) 0xF50A).map (fun t => (t.readV 0x5#4, t.pc)) = some (0x77#8, 0x200#16) := by decide

/-- V.KT-11. -/
theorem test_ldDtVx : (after (regs [(0x3#4, 0x3C#8)]) 0xF315).map (fun t => (t.DT, t.ST)) = some (0x3C#8, 0x00#8) := by decide

/-- The example of R196. -/
theorem test_ldStVx : (after (regs [(0x1#4, 0x02#8)]) 0xF118).map (fun t => (t.DT, t.ST)) = some (0x00#8, 0x02#8) := by decide

/-- V.IM-1. -/
theorem test_ldI : (after State.reset 0xA123).map (fun t => t.I) = some 0x0123#16 := by decide

/-- V.IM-2 and V.IM-3. -/
theorem test_addI : (after { regs [(0x0#4, 0x02#8)] with I := 0x0FFF#16 } 0xF01E).map (fun t => t.I) = some 0x1001#16 ∧
    (after { regs [(0x0#4, 0x01#8)] with I := 0xFFFF#16 } 0xF01E).map (fun t => t.I) = some 0x0000#16 := by decide

/-- S8 and V.IM-7. -/
theorem test_ldF : (after (regs [(0x4#4, 0x0A#8)]) 0xF429).map (fun t => t.I) = some 0x082#16 ∧
    (after (regs [(0x0#4, 0xFF#8)]) 0xF029).map (fun t => t.I) = some 0x54B#16 := by decide

/-- S7. -/
theorem test_ldB : (after { regs [(0x3#4, 0x9D#8)] with I := 0x300#16 } 0xF333).map
    (fun t => (t.mem.byteAt 0x300, t.mem.byteAt 0x301, t.mem.byteAt 0x302, t.I)) = some (1#8, 5#8, 7#8, 0x300#16) := by decide

/-- V.IM-12. -/
theorem test_ldB_range : (after { regs [(0x0#4, 0xFF#8)] with I := 0xFFE#16 } 0xF033).map
    (fun t => (t.FAULT.cause, t.FAULT.info, t.mem.byteAt 0xFFE)) = some (2#4, 0x1000#16, 0x00#8) := by decide

/-- The example of R216. -/
theorem test_ldMemVx : (after { regs [(0x0#4, 1#8), (0x1#4, 2#8), (0x2#4, 3#8), (0x3#4, 4#8)] with I := 0x300#16 } 0xF255).map
    (fun t => (t.mem.byteAt 0x300, t.mem.byteAt 0x301, t.mem.byteAt 0x302, t.mem.byteAt 0x303)) =
      some (1#8, 2#8, 3#8, 0#8) := by decide

/-- V.IM-16. -/
theorem test_ldMemVx_range : (after { regs [(0x0#4, 1#8)] with I := 0xFF1#16 } 0xFF55).map
    (fun t => (t.FAULT.cause, t.FAULT.info, t.mem.byteAt 0xFF1)) = some (2#4, 0x1000#16, 0x00#8) := by decide

/-- V.IM-17. -/
theorem test_ldVxMem : (after (store 0x300 [0x11#8, 0x22#8, 0x33#8, 0x44#8] { State.reset with I := 0x300#16 }) 0xF265).map
    (fun t => (t.readV 0x0#4, t.readV 0x1#4, t.readV 0x2#4, t.readV 0x3#4)) = some (0x11#8, 0x22#8, 0x33#8, 0x00#8) := by decide

/-- R217: a load past the top of memory writes no register. -/
theorem test_ldVxMem_range : (after { regs [(0x0#4, 9#8)] with I := 0xFFF#16 } 0xF165).map
    (fun t => (t.FAULT.cause, t.FAULT.info, t.readV 0x0#4)) = some (2#4, 0x1000#16, 9#8) := by decide

/-- V.DS-1. -/
theorem test_cls : (after { regs [(VF, 0x55#8)] with fb := Vector.replicate 32 0xFFFF#64 } 0x00E0).map
    (fun t => (t.fb.pixel 0 0, t.fb.pixel 15 31, t.readV VF)) = some (false, false, 0x55#8) := by decide

/-- V.DS-10. -/
theorem test_drw :
    (after (store 0x300 [0xC0#8] { State.reset with I := 0x300#16, fb := State.reset.fb.flip 0 0 }) 0xD011).map
      (fun t => (t.fb.pixel 0 0, t.fb.pixel 1 0, t.fb.pixel 2 0, t.readV VF)) = some (false, true, false, 0x01#8) := by decide

/-- V.DS-7: a sprite wrapped in the bottom right corner. -/
theorem test_drw_wraps :
    (after (store 0x300 [0xFF#8] { regs [(0x0#4, 0x3C#8), (0x1#4, 0x1F#8)] with I := 0x300#16 }) 0xD011).map
      (fun t => ((t.fb.get 31).toNat, (t.fb.get 0).toNat, t.readV VF)) = some (0xF00000000000000F, 0, 0x00#8) := by decide

/-- S11. -/
theorem test_unknown : (after State.reset 0x5121).map (fun t => (t.pc, t.out, t.FAULT.valid)) =
    some (0x202#16, [.diag 0x5121#16 0x200#16], false) := by decide

/-! ## The frame sequence -/

/-- V.FS-8: quit halts before EXEC. -/
theorem test_quit_halts :
    (match step { State.reset with keyEvents := [.quit], SEQ := { phase := .input, cycle := 0, quit := false } } with
      | .next t => (t.SEQ.phase, t.SEQ.quit, t.FAULT.valid)
      | .fault _ => (.idle, false, false)
      | .refused _ => (.idle, false, false)) = (.halted, true, false) := by decide

/-- V.FS-7: a press and release between two INPUT phases leave the key released. -/
theorem test_short_press_is_lost :
    (match step { State.reset with keyEvents := [.key 4 true, .key 4 false], SEQ := { phase := .input, cycle := 0, quit := false } } with
      | .next t => (t.SEQ.phase, t.key.get 4)
      | .fault _ => (.idle, true)
      | .refused _ => (.idle, true)) = (.exec, false) := by decide

/-- The state in a phase of the frame sequence. -/
def inPhase (ph : Phase) (s : State) : State := { s with SEQ := { s.SEQ with phase := ph }, boot := .ready }

/-- V.FS-3: the gate at ST = 01, and the tick. -/
theorem test_audio_starts : (match step (inPhase .audio { State.reset with ST := 1#8 }) with
      | .next t => (t.out, t.audioActive)
      | .fault _ => ([], false)
      | .refused _ => ([], false)) = ([.audioStart], true) := by decide

theorem test_timers_tick : (match step (inPhase .timers { State.reset with ST := 1#8, DT := 0#8 }) with
      | .next t => (t.ST, t.DT)
      | .fault _ => (9#8, 9#8)
      | .refused _ => (9#8, 9#8)) = (0#8, 0#8) := by decide

/-! ## Witnesses: states and operands that meet the hypotheses of each statement -/

/-- A sound state at an instruction cycle, with this word at its pc. -/
def atCycle (pc : Word) (w : Word) : State := inPhase .exec (store pc.toNat (wordBytes w) { State.reset with pc := pc })

theorem witness_DecodeInvertsEncode :
    (Instr.sys 0x0DF#12).wellFormed = true ∧ (Instr.sys 0xFFF#12).wellFormed = true ∧ Instr.cls.wellFormed = true := by decide

theorem witness_EncodeInvertsDecode :
    decode false 0x00E1#16 = .known (.sys 0x0E1#12) ∧ decode true 0x8AB4#16 = .known (.addReg 0xA#4 0xB#4) := by decide

theorem witness_DecoderAgreesWithTable :
    decode false 0x00EE#16 = .known .ret ∧
    (0x00EF#16 &&& (tableRow (.sys 0#12)).1 = (tableRow (.sys 0#12)).2 ∧
      (tableRow (.sys 0#12) = (0xF000#16, 0x0000#16) → 0x00EF#16 ≠ 0x00E0#16 ∧ 0x00EF#16 ≠ 0x00EE#16)) ∧
    (0x00E0#16 &&& (tableRow .cls).1 = (tableRow .cls).2 ∧
      (tableRow .cls = (0xF000#16, 0x0000#16) → 0x00E0#16 ≠ 0x00E0#16 ∧ 0x00E0#16 ≠ 0x00EE#16)) := by decide

theorem witness_UnknownWordsAreTheListed : decode false 0x800F#16 = .unknown 0x800F#16 ∧
    decode true 0x00DF#16 = .unknown 0x00DF#16 := by decide

theorem witness_ResetValuesAreTabulated : (0x04F : Nat) < 0x050 ∧ (0x0A0 : Nat) ≤ 0x0A0 ∧ (0xFFF : Nat) < 4096 := by decide

theorem witness_ResetPlacesAnyFont : ((0x04F : Nat) < 0x050 ∨ (0x0A0 : Nat) ≤ 0x04F) ∧
    ((0x0A0 : Nat) < 0x050 ∨ (0x0A0 : Nat) ≤ 0x0A0) := by decide

/-- A state in IDLE that awaits the ROM, with this delivery first in the inbox. -/
def awaiting (rom : Option (List Byte)) : State := { State.reset with inbox := [.rom rom] }

theorem witness_RomLoadCopiesOrFails (rom : Option (List Byte)) :
    (awaiting rom).SEQ.phase = .idle ∧ (awaiting rom).boot = .awaitRom ∧ (awaiting rom).inbox = .rom rom :: [] ∧
    (awaiting rom).mem.wf = true := ⟨rfl, rfl, rfl, rfl⟩

theorem witness_RomLoadCopiesOrFails_lengths :
    ([] : List Byte).length ≤ 3584 ∧ (List.replicate 3584 0xAA#8).length ≤ 3584 ∧
    3584 < (List.replicate 3585 0xAA#8).length := by
  rw [List.length_replicate, List.length_replicate]
  exact ⟨Nat.zero_le _, Nat.le_refl _, Nat.lt_succ_self _⟩

theorem witness_LoadErrorRunsNoFrame :
    step { State.reset with boot := .failed, inbox := [.frameStart] } = .next { State.reset with boot := .failed } := rfl

theorem witness_PlacedWordIsFetchedNext : State.reset.mem.wf = true ∧ State.reset.CanFetch := ⟨by decide, by decide⟩

theorem witness_StepRunsDecodedInstruction :
    (atCycle 0xFFE#16 0x00E0#16).AtCycle ∧ (atCycle 0xFFE#16 0x00E0#16).CanFetch ∧
    decode false (atCycle 0xFFE#16 0x00E0#16).wordAtPc = .known .cls ∧
    ∃ t, exec .cls (atCycle 0xFFE#16 0x00E0#16).fetched = .next t ∧ t.FAULT.valid = false :=
  ⟨⟨by decide, by decide, by decide⟩, by decide, by decide, _, rfl, by decide⟩

theorem witness_StepRunsDecodedInstruction_fault :
    (atCycle 0x200#16 0x00EE#16).AtCycle ∧ (atCycle 0x200#16 0x00EE#16).CanFetch ∧
    decode false (atCycle 0x200#16 0x00EE#16).wordAtPc = .known .ret ∧
    ∃ t, exec .ret (atCycle 0x200#16 0x00EE#16).fetched = .next t ∧ t.FAULT.valid = true :=
  ⟨⟨by decide, by decide, by decide⟩, by decide, by decide, _, rfl, by decide⟩

theorem witness_UnknownWordSendsOneDiagnostic :
    (atCycle 0x200#16 0x5121#16).AtCycle ∧ (atCycle 0x200#16 0x5121#16).CanFetch ∧
    decode false (atCycle 0x200#16 0x5121#16).wordAtPc = .unknown (atCycle 0x200#16 0x5121#16).wordAtPc :=
  ⟨⟨by decide, by decide, by decide⟩, by decide, by decide⟩

/-- V.CF-1's word under SYS_IS_UNKNOWN = true, in the last cycle of a batch of one (R121). -/
theorem witness_UnknownWordSendsOneDiagnostic_sys :
    let p : Params := { cyclesPerFrame := 1, font := fontDefault, sysIsUnknown := true }
    (atCycle 0x200#16 0x0123#16).AtCycleOf p ∧ (atCycle 0x200#16 0x0123#16).CanFetch ∧
    decode p.sysIsUnknown (atCycle 0x200#16 0x0123#16).wordAtPc = .unknown (atCycle 0x200#16 0x0123#16).wordAtPc :=
  ⟨⟨by decide, by decide, by decide⟩, by decide, by decide⟩

/-- A state at an instruction cycle whose pc stands at the last byte of memory, and one past it. -/
theorem witness_FetchPastMemoryFaults :
    (inPhase .exec { State.reset with pc := 0xFFF#16 }).AtCycle ∧ ¬ (inPhase .exec { State.reset with pc := 0xFFF#16 }).CanFetch ∧
    (inPhase .exec { State.reset with pc := 0x10FE#16 }).AtCycle ∧ ¬ (inPhase .exec { State.reset with pc := 0x10FE#16 }).CanFetch :=
  ⟨⟨by decide, by decide, by decide⟩, by decide, ⟨by decide, by decide, by decide⟩, by decide⟩

theorem witness_FaultsArePrecise :
    (atCycle 0x200#16 0x00EE#16).AtCycle ∧ (atCycle 0x200#16 0x00EE#16).CanFetch ∧
    (∃ t, step (atCycle 0x200#16 0x00EE#16) = .next t ∧ t.FAULT.valid = true) ∧
    ¬ (inPhase .exec { State.reset with pc := 0xFFF#16 }).CanFetch ∧
    ∃ t, step (inPhase .exec { State.reset with pc := 0xFFF#16 }) = .next t ∧ t.FAULT.valid = true :=
  ⟨⟨by decide, by decide, by decide⟩, by decide, ⟨_, rfl, by decide⟩, by decide, _, rfl, by decide⟩

/-- A step of each of the four faulting kinds that writes FAULT. -/
theorem witness_OnlyListedInstructionsFault :
    (∃ t, exec (.call 0x300#12) { State.reset with sp := 16 } = .next t ∧ t.FAULT ≠ State.reset.FAULT) ∧
    (∃ t, exec .ret State.reset = .next t ∧ t.FAULT ≠ State.reset.FAULT) ∧
    (∃ t, exec (.sknp 0x0#4) (regs [(0x0#4, 0x10#8)]) = .next t ∧ t.FAULT ≠ State.reset.FAULT) ∧
    (∃ t, exec (.drw 0x0#4 0x0#4 1#4) { State.reset with I := 0x1000#16 } = .next t ∧ t.FAULT ≠ State.reset.FAULT) :=
  ⟨⟨_, rfl, by decide⟩, ⟨_, rfl, by decide⟩, ⟨_, rfl, by decide⟩, ⟨_, rfl, by decide⟩⟩

theorem witness_reset_sound : State.reset.Sound where
  memory := by decide
  cycle := by decide
  faultHalts := by decide
  quitHalts := by decide
  haltedWhy := by decide
  faultClear := by decide
  faultCode := fun h => absurd h (by decide)
  framesAfterBoot := by decide

/-- A sound state in the middle of a frame. -/
theorem witness_atCycle_sound : (atCycle 0x200#16 0x00EE#16).Sound where
  memory := by decide
  cycle := by decide
  faultHalts := by decide
  quitHalts := by decide
  haltedWhy := by decide
  faultClear := by decide
  faultCode := fun h => absurd h (by decide)
  framesAfterBoot := by decide

theorem witness_StepKeepsSound : (atCycle 0x200#16 0x00EE#16).Sound ∧ ∃ t, step (atCycle 0x200#16 0x00EE#16) = .next t :=
  ⟨witness_atCycle_sound, _, rfl⟩

/-- The reset state halted by a stack underflow at its pc. -/
def halted : State :=
  { State.reset with
    FAULT := faultRecord .stackUnderflow 0x200#16 0x00EE#16 0
    SEQ := { phase := .halted, cycle := 0, quit := false }
    boot := .ready }

theorem witness_HaltedCoreDoesNothing : halted.SEQ.phase = .halted ∧ halted.Sound ∧ halted.FAULT.valid = true :=
  ⟨rfl, { memory := by decide
          cycle := by decide
          faultHalts := by decide
          quitHalts := by decide
          haltedWhy := by decide
          faultClear := by decide
          faultCode := fun _ => ⟨.stackUnderflow, rfl⟩
          framesAfterBoot := by decide }, rfl⟩

theorem witness_StepSendsAtMostOneMessage :
    (∃ t, stepWith Params.standard (inPhase .render State.reset) = .next t ∧ t.out ≠ State.reset.out) ∧
    ∃ t, stepWith Params.standard (inPhase .timers State.reset) = .next t :=
  ⟨⟨_, rfl, by decide⟩, _, rfl⟩

/-- For each clause, an instruction that changes the state it is about. -/
theorem witness_InstructionsWriteOnlyTheirState :
    (∃ t, exec (.ldI 0x300#12) State.reset = .next t ∧ t.I ≠ State.reset.I) ∧
    (∃ t, exec (.call 0x300#12) { State.reset with pc := 0x202#16 } = .next t ∧ t.stack ≠ State.reset.stack ∧ t.sp ≠ State.reset.sp) ∧
    (∃ t, exec (.ldDtVx 0x0#4) (regs [(0x0#4, 1#8)]) = .next t ∧ t.DT ≠ State.reset.DT) ∧
    (∃ t, exec (.ldStVx 0x0#4) (regs [(0x0#4, 1#8)]) = .next t ∧ t.ST ≠ State.reset.ST) ∧
    (∃ t, exec (.ldMemVx 0x0#4) { regs [(0x0#4, 1#8)] with I := 0x300#16 } = .next t ∧ t.mem ≠ State.reset.mem) ∧
    (∃ t, exec (.drw 0x0#4 0x0#4 1#4) { State.reset with I := 0x050#16 } = .next t ∧ t.fb ≠ State.reset.fb) ∧
    (∃ t, exec (.rnd 0x0#4 0x00#8) State.reset = .next t ∧ t.draws ≠ State.reset.draws) :=
  ⟨⟨_, rfl, by decide⟩, ⟨_, rfl, by decide, by decide⟩, ⟨_, rfl, by decide⟩, ⟨_, rfl, by decide⟩, ⟨_, rfl, by decide⟩,
    ⟨_, rfl, by decide⟩, _, rfl, by decide⟩

/-- The clauses on the registers and pc: a destination, VF as a flag, a jump, a taken skip, the key wait, a fault. -/
theorem witness_InstructionsWriteOnlyTheirState_registers :
    (∃ t, exec (.ldImm 0xE#4 1#8) State.reset = .next t ∧ t.readV 0xE#4 ≠ State.reset.readV 0xE#4) ∧
    (∃ t, exec (.addReg 0x0#4 0x1#4) State.reset = .next t ∧ t.readV VF ≠ State.reset.readV VF) ∧
    (∃ t, exec (.jp 0x300#12) State.reset = .next t ∧ t.pc ≠ State.reset.pc) ∧
    (∃ t, exec (.seImm 0x0#4 0x00#8) State.reset = .next t ∧ t.pc ≠ State.reset.pc) ∧
    (∃ t, exec (.ldVxK 0x0#4) State.reset = .next t ∧ t.pc ≠ State.reset.pc) ∧
    (∃ t, exec .ret State.reset = .next t ∧ t.pc ≠ State.reset.pc ∧ t.FAULT ≠ State.reset.FAULT ∧
      t.SEQ ≠ State.reset.SEQ ∧ t.out ≠ State.reset.out) :=
  ⟨⟨_, rfl, by decide⟩, ⟨_, rfl, by decide⟩, ⟨_, rfl, by decide⟩, ⟨_, rfl, by decide⟩, ⟨_, rfl, by decide⟩,
    _, rfl, by decide, by decide, by decide, by decide⟩

/-- For each clause, a step that changes the state it is about. -/
theorem witness_StateChangesOnlyInItsPhase :
    (∃ t, step { inPhase .input State.reset with keyEvents := [.key 0 true] } = .next t ∧ t.key ≠ State.reset.key) ∧
    (∃ t, step (inPhase .audio { State.reset with ST := 1#8 }) = .next t ∧ t.audioActive ≠ State.reset.audioActive) ∧
    (∃ t, step (atCycle 0x200#16 0x6001#16) = .next t ∧ t.v ≠ State.reset.v ∧ t.pc ≠ State.reset.pc ∧ t.IR ≠ State.reset.IR) ∧
    (∃ t, step (atCycle 0x200#16 0x00EE#16) = .next t ∧ t.FAULT ≠ State.reset.FAULT) ∧
    (∃ t, step { atCycle 0x200#16 0x00E0#16 with fb := State.reset.fb.flip 0 0 } = .next t ∧ t.fb ≠ State.reset.fb.flip 0 0) ∧
    (∃ t, step (inPhase .timers { State.reset with DT := 1#8, ST := 2#8 }) = .next t ∧ t.DT ≠ 1#8 ∧ t.ST ≠ 2#8) ∧
    (∃ t, step { atCycle 0x200#16 0xF018#16 with ST := 1#8 } = .next t ∧ t.ST ≠ 1#8) ∧
    (∃ t, step (awaiting (some [1#8])) = .next t ∧ t.mem ≠ State.reset.mem) :=
  ⟨⟨_, rfl, by decide⟩, ⟨_, rfl, by decide⟩, ⟨_, rfl, by decide, by decide, by decide⟩, ⟨_, rfl, by decide⟩,
    ⟨_, rfl, by decide⟩, ⟨_, rfl, by decide, by decide⟩, ⟨_, rfl, by decide⟩, _, rfl, by decide⟩

/-- The clauses on the sequencer and the model's own state. -/
theorem witness_StateChangesOnlyInItsPhase_queues :
    (∃ t, step { inPhase .input State.reset with keyEvents := [.quit] } = .next t ∧ t.SEQ.quit ≠ false ∧ t.keyEvents ≠ [.quit]) ∧
    (∃ t, step (atCycle 0x200#16 0x00E0#16) = .next t ∧ t.SEQ.cycle ≠ 0) ∧
    (∃ t, step (atCycle 0x200#16 0xC000#16) = .next t ∧ t.draws ≠ 0) ∧
    (∃ t, step (awaiting none) = .next t ∧ t.boot ≠ .awaitRom ∧ t.inbox ≠ [.rom none]) ∧
    (∃ t, step { State.reset with inbox := [.event .quit] } = .next t ∧ t.keyEvents ≠ []) :=
  ⟨⟨_, rfl, by decide, by decide⟩, ⟨_, rfl, by decide⟩, ⟨_, rfl, by decide⟩, ⟨_, rfl, by decide, by decide⟩, _, rfl, by decide⟩

theorem witness_HostQueuesDoNotReachTheCore :
    (atCycle 0x200#16 0x00EE#16).SEQ.phase ≠ .idle ∧ (atCycle 0x200#16 0x00EE#16).SEQ.phase ≠ .input ∧
    ∃ t, stepWith Params.standard (atCycle 0x200#16 0x00EE#16) = .next t := ⟨by decide, by decide, _, rfl⟩

theorem witness_IdleWaitsForTheHost :
    State.reset.SEQ.phase = .idle ∧ State.reset.inbox = [] ∧
    ({ State.reset with inbox := [.event .quit] } : State).inbox = .event .quit :: [] ∧
    (({ State.reset with inbox := [.frameStart] } : State).inbox = .frameStart :: [] ∧ State.reset.boot ≠ .failed) ∧
    (({ State.reset with inbox := [.frameStart], boot := .failed } : State).inbox = .frameStart :: [] ∧
      ({ State.reset with inbox := [.frameStart], boot := .failed } : State).boot = .failed) ∧
    (({ awaiting none with boot := .ready } : State).inbox = .rom none :: [] ∧
      ({ awaiting none with boot := .ready } : State).boot ≠ .awaitRom) ∧
    ({ awaiting (some [1#8]) with boot := .failed } : State).boot ≠ .awaitRom := by decide

theorem witness_InputDrainsEventsInOrder :
    (inPhase .input State.reset).SEQ.phase = .input ∧
    (inPhase .input { State.reset with keyEvents := [.key 15 true, .quit] }).SEQ.phase = .input := by decide

theorem witness_CompleteBatchGoesToAudio :
    (inPhase .exec { State.reset with SEQ := { phase := .exec, cycle := 10, quit := false } }).SEQ.phase = .exec ∧
    Params.standard.cyclesPerFrame ≤
      (inPhase .exec { State.reset with SEQ := { phase := .exec, cycle := 10, quit := false } }).SEQ.cycle := by decide

/-- A state in AUDIO for each clause: starting, stopping, staying silent, staying on. -/
theorem witness_AudioGateIsEdgeTriggered :
    (inPhase .audio { State.reset with ST := 1#8 }).SEQ.phase = .audio ∧
    ((inPhase .audio { State.reset with ST := 1#8 }).ST ≠ 0x00#8 ∧ (inPhase .audio { State.reset with ST := 1#8 }).audioActive = false) ∧
    ((inPhase .audio { State.reset with audioActive := true }).ST = 0x00#8 ∧
      (inPhase .audio { State.reset with audioActive := true }).audioActive = true) ∧
    ((inPhase .audio State.reset).ST ≠ 0x00#8 ↔ (inPhase .audio State.reset).audioActive = true) := by decide

theorem witness_TimersPhaseTicksBothTimers : (inPhase .timers { State.reset with DT := 0xFF#8 }).SEQ.phase = .timers := by decide

theorem witness_RenderSendsEveryPixel : (inPhase .render State.reset).SEQ.phase = .render := by decide

theorem witness_FrameEndsAndSendsOneFrame : (inPhase .input State.reset).Sound ∧ (inPhase .input State.reset).SEQ.phase = .input :=
  ⟨{ memory := by decide
     cycle := by decide
     faultHalts := by decide
     quitHalts := by decide
     haltedWhy := by decide
     faultClear := by decide
     faultCode := fun h => absurd h (by decide)
     framesAfterBoot := by decide }, rfl⟩

/-- The stack empty, with room for one, and full. -/
theorem witness_CallPushesOrOverflows :
    State.reset.sp.val < 16 ∧ ({ State.reset with sp := 15 } : State).sp.val < 16 ∧
    ({ State.reset with sp := 16 } : State).sp.val = 16 := by decide

theorem witness_RetPopsOrUnderflows :
    ({ State.reset with sp := 1 } : State).sp.val = (0 : Fin 16).val + 1 ∧
    ({ State.reset with sp := 16 } : State).sp.val = (15 : Fin 16).val + 1 ∧ State.reset.sp.val = 0 := by decide

theorem witness_RetReturnsAfterItsCall :
    ({ State.reset with sp := 15 } : State).sp.val < 16 ∧ ∃ t, exec (.call 0xFFF#12) { State.reset with sp := 15 } = .next t ∧
      ∃ u : State, u.stack = t.stack ∧ u.sp = t.sp := ⟨by decide, _, rfl, _, rfl, rfl⟩

theorem witness_AddRegInvertsTheCarry : (0x0#4 : Reg) ≠ VF ∧ (0xE#4 : Reg) ≠ VF := by decide

theorem witness_SubtractionsClearVfOnBorrow : (0x1#4 : Reg) ≠ VF := by decide

theorem witness_ShiftsReadVy : (0x2#4 : Reg) ≠ VF := by decide

theorem witness_RndMasksOneDraw : (0x7F#8).getLsbD 7 = false ∧ (0xFE#8).getLsbD 0 = false := by decide

/-- A key index at both ends of its range, and the two ends of what lies above it. -/
theorem witness_KeySkipsOrRangeFault :
    (State.reset.readV 0x0#4).toNat = (0 : Fin 16).val ∧ ((regs [(0x0#4, 0x0F#8)]).readV 0x0#4).toNat = (15 : Fin 16).val ∧
    15 < ((regs [(0x0#4, 0x10#8)]).readV 0x0#4).toNat ∧ 15 < ((regs [(0x0#4, 0xFF#8)]).readV 0x0#4).toNat := by decide

theorem witness_WaitForKeyTakesLowest :
    ((keys [0, 15] State.reset).key.get 0 = true ∧ ∀ j : Fin 16, j < 0 → (keys [0, 15] State.reset).key.get j = false) ∧
    ((keys [15] State.reset).key.get 15 = true ∧ ∀ j : Fin 16, j < 15 → (keys [15] State.reset).key.get j = false) ∧
    (∀ k : Fin 16, State.reset.key.get k = false) := by decide

/-- The last three bytes of memory, and one address further. -/
theorem witness_BcdStoresDigitsOrFaults : State.reset.mem.wf = true ∧
    ({ State.reset with I := 0xFFD#16 } : State).I.toNat + 2 < 4096 ∧
    4096 ≤ ({ State.reset with I := 0xFFE#16 } : State).I.toNat + 2 ∧
    4096 ≤ ({ State.reset with I := 0xFFFF#16 } : State).I.toNat + 2 := by decide

/-- The last x + 1 bytes of memory, and one address further, at both ends of x. -/
theorem witness_RegisterDumpStoresOrFaults : State.reset.mem.wf = true ∧
    ({ State.reset with I := 0xFFF#16 } : State).I.toNat + (0x0#4).toNat < 4096 ∧
    ({ State.reset with I := 0xFF0#16 } : State).I.toNat + (0xF#4).toNat < 4096 ∧
    4096 ≤ ({ State.reset with I := 0x1000#16 } : State).I.toNat + (0x0#4).toNat ∧
    4096 ≤ ({ State.reset with I := 0xFF1#16 } : State).I.toNat + (0xF#4).toNat := by decide

theorem witness_RegisterLoadReadsOrFaults :
    ({ State.reset with I := 0xFF0#16 } : State).I.toNat + (0xF#4).toNat < 4096 ∧ (0x0#4).toNat < (0x1#4).toNat ∧
    4096 ≤ ({ State.reset with I := 0xFF1#16 } : State).I.toNat + (0xF#4).toNat := by decide

theorem witness_DumpThenLoadRestoresRegisters : State.reset.mem.wf = true ∧
    ({ State.reset with I := 0xFF0#16 } : State).I.toNat + (0xF#4).toNat < 4096 ∧
    ∃ t, exec (.ldMemVx 0xF#4) { State.reset with I := 0xFF0#16 } = .next t ∧ ∃ u : State, u.mem = t.mem ∧ u.I = t.I :=
  ⟨by decide, by decide, _, rfl, _, rfl, rfl⟩

/-- The store's range at its upper end, the last fetch of memory, and pc one byte before, inside and at the last stored
byte. -/
theorem witness_StoresAreSeenByTheNextFetch : State.reset.mem.wf = true ∧
    (let s : State := { State.reset with I := 0xFFD#16, pc := 0xFFC#16 }
     s.CanFetch ∧ s.I.toNat + 2 < 4096 ∧ s.pc.toNat + 1 = s.I.toNat) ∧
    (let s : State := { State.reset with I := 0x202#16, pc := 0x204#16 }
     s.CanFetch ∧ s.I.toNat + 2 < 4096 ∧ s.pc.toNat = s.I.toNat + 2) ∧
    (let s : State := { State.reset with I := 0xFF0#16, pc := 0xFFE#16 }
     s.CanFetch ∧ s.I.toNat + (0xF#4).toNat < 4096 ∧ s.I.toNat ≤ s.pc.toNat ∧ s.pc.toNat + 1 = s.I.toNat + (0xF#4).toNat) := by
  decide

/-- The range's two ends, and n = 0 with I past memory. -/
theorem witness_DrwXorsWrappedPixelsOrFaults :
    ((0x0#4 : Count) = 0#4 ∨ ({ State.reset with I := 0xFFFF#16 } : State).I.toNat + (0x0#4).toNat ≤ 4096) ∧
    ({ State.reset with I := 0xFF1#16 } : State).I.toNat + (0xF#4).toNat ≤ 4096 ∧
    ((0xF#4 : Count) ≠ 0#4 ∧ 4096 < ({ State.reset with I := 0xFF2#16 } : State).I.toNat + (0xF#4).toNat) := by decide

/-- A sprite byte, the first of glyph 0, that meets a set pixel, and one that meets none. -/
theorem witness_DrwXorsWrappedPixelsOrFaults_collision :
    (∃ r c : Nat, r < (0x1#4).toNat ∧ c < 8 ∧ (State.reset.mem.byteAt (0x050 + r)).getLsbD (7 - c) = true ∧
      (State.reset.fb.flip 0 0).pixel (screenColumn (0 + c)) (screenRow (0 + r)) = true) ∧
    ¬ ∃ r c : Nat, r < (0x1#4).toNat ∧ c < 8 ∧ (State.reset.mem.byteAt (0x050 + r)).getLsbD (7 - c) = true ∧
      State.reset.fb.pixel (screenColumn (0 + c)) (screenRow (0 + r)) = true := by
  refine ⟨⟨0, 0, by decide⟩, ?_⟩
  rintro ⟨r, c, -, -, -, h⟩
  simp [State.reset, Framebuffer.pixel, Vector.get_eq_getElem] at h

theorem witness_DrawingTwiceRestoresTheScreen :
    ({ State.reset with I := 0x050#16 } : State).I.toNat + (0x5#4).toNat ≤ 4096 ∧
    ∃ t, exec (.drw 0x0#4 0x1#4 0x5#4) { State.reset with I := 0x050#16 } = .next t ∧
      t.readV 0x0#4 = State.reset.readV 0x0#4 ∧ t.readV 0x1#4 = State.reset.readV 0x1#4 :=
  ⟨by decide, _, rfl, by decide, by decide⟩

theorem witness_DrwAfterClsSetsNoCollision : (∃ t, exec .cls { State.reset with I := 0x050#16 } = .next t) ∧
    ({ State.reset with I := 0x050#16 } : State).I.toNat + (0x5#4).toNat ≤ 4096 := ⟨⟨_, rfl⟩, by decide⟩

/-- S6's start. -/
theorem witness_SpriteAtColumn60Wraps :
    let s := store 0x300 [0xFF#8] { regs [(0x0#4, 60#8)] with I := 0x300#16 }
    (∀ (px : Fin 64) (py : Fin 32), s.fb.pixel px py = false) ∧ s.I.toNat < 4096 ∧ s.mem.byteAt s.I.toNat = 0xFF#8 ∧
    s.readV 0x0#4 = 60#8 := by
  refine ⟨fun px py => ?_, by decide, by decide, by decide⟩
  simp [store, regs, State.writeV, State.reset, Framebuffer.pixel, Vector.get_eq_getElem]

theorem witness_LdFPointsAtItsGlyph : (regs [(0x0#4, 0x0F#8)]).mem = State.reset.mem ∧
    ((regs [(0x0#4, 0x0F#8)]).readV 0x0#4).toNat = (15 : Fin 16).val := by decide

end Sys2Proof.Tests
end

section
/-! Control flow: the jumps and the register skips (R120, R122, R125 to R129). -/

namespace Sys2Proof.Machine

/-! ### The zero extensions lose no bit (R9, R92) -/

@[simp] theorem addrToWord_toNat (nnn : Addr12) : (addrToWord nnn).toNat = nnn.toNat :=
  BitVec.toNat_setWidth_of_le (by decide)

@[simp] theorem byteToWord_toNat (b : Byte) : (byteToWord b).toNat = b.toNat :=
  BitVec.toNat_setWidth_of_le (by decide)

/-- JP_V0's target: a 12-bit address and a byte add to at most 0x10FE, so the 16-bit sum never wraps (R129). -/
theorem addrToWord_add_byteToWord_toNat (nnn : Addr12) (b : Byte) :
    (addrToWord nnn + byteToWord b).toNat = nnn.toNat + b.toNat := by
  have hsum : (addrToWord nnn).toNat + (byteToWord b).toNat < 2 ^ 16 := by
    have haddr := nnn.isLt
    have hbyte := b.isLt
    simp only [addrToWord_toNat, byteToWord_toNat]
    omega
  simpa using BitVec.toNat_add_of_lt hsum

/-! ### What moves pc changes nothing else -/

theorem onlyPc_jumpTo (s : State) (target : Word) : OnlyPc s (s.jumpTo target) := rfl

theorem onlyPc_skipIf (s : State) (c : Bool) : OnlyPc s (s.skipIf c) := by
  rw [State.skipIf_eq]; rfl

@[simp] theorem State.skipIf_pc (s : State) (c : Bool) :
    (s.skipIf c).pc = if c then s.pc + 2#16 else s.pc := by
  rw [State.skipIf_eq]

/-! ### The jump and skip arms of exec -/

theorem exec_jp (nnn : Addr12) (s : State) : exec (.jp nnn) s = .next (s.jumpTo (addrToWord nnn)) := rfl

theorem exec_jpV0 (nnn : Addr12) (s : State) :
    exec (.jpV0 nnn) s = .next (s.jumpTo (addrToWord nnn + byteToWord (s.readV 0x0#4))) := rfl

theorem exec_seImm (x : Reg) (kk : Byte) (s : State) :
    exec (.seImm x kk) s = .next (s.skipIf (s.readV x == kk)) := rfl

theorem exec_sneImm (x : Reg) (kk : Byte) (s : State) :
    exec (.sneImm x kk) s = .next (s.skipIf (s.readV x != kk)) := rfl

theorem exec_seReg (x y : Reg) (s : State) :
    exec (.seReg x y) s = .next (s.skipIf (s.readV x == s.readV y)) := rfl

theorem exec_sneReg (x y : Reg) (s : State) :
    exec (.sneReg x y) s = .next (s.skipIf (s.readV x != s.readV y)) := rfl

/-- An instruction that answers a skip on the test `c` moves pc over one word exactly when the condition `p` that `c`
decides holds, and changes nothing else (R120). -/
theorem next_skipIf {i : Instr} {s : State} {c : Bool} {p : Prop} [Decidable p]
    (hexec : exec i s = .next (s.skipIf c)) (hc : c = true ↔ p) :
    ∃ t, exec i s = .next t ∧ t.pc = (if p then s.pc + 2#16 else s.pc) ∧ OnlyPc s t :=
  ⟨s.skipIf c, hexec, by simp only [State.skipIf_pc, hc], onlyPc_skipIf s c⟩

/-- Settles O32: both answer `jumpTo` of a target that the zero extensions make exact. -/
theorem jumpsLoadThePc : Obligations.JumpsLoadThePc := by
  intro nnn s
  constructor
  · exact ⟨_, exec_jp nnn s, addrToWord_toNat nnn, onlyPc_jumpTo s _⟩
  · exact ⟨_, exec_jpV0 nnn s, addrToWord_add_byteToWord_toNat nnn _, onlyPc_jumpTo s _⟩

/-- Settles O33: each of the four answers `skipIf` of a test that decides its comparison. -/
theorem skipsMoveOverOneWord : Obligations.SkipsMoveOverOneWord := by
  intro x y kk s
  refine ⟨?seImm, ?sneImm, ?seReg, ?sneReg⟩
  case seImm => exact next_skipIf (exec_seImm x kk s) beq_iff_eq
  case sneImm => exact next_skipIf (exec_sneImm x kk s) bne_iff_ne
  case seReg => exact next_skipIf (exec_seReg x y s) beq_iff_eq
  case sneReg => exact next_skipIf (exec_sneReg x y s) bne_iff_ne

end Sys2Proof.Machine
end

section
/-! Keypad and timers: the timer transfers and the wait for a key (R193 to R196). -/

namespace Sys2Proof.Machine

/-! ### Writing V[x] changes no other register and nothing but registers -/

theorem onlyRegisters_writeV (s : State) (x : Reg) (b : Byte) : OnlyRegisters [x] s (s.writeV x b) :=
  ⟨fun _ hj => State.readV_writeV_other s b (List.ne_of_not_mem_cons hj), rfl⟩

/-! ### The scan for the lowest pressed key (R194) -/

theorem firstPressed_eq_some_iff (key : Vector Bool 16) (k : Fin 16) :
    firstPressed key = some k.val ↔ key.get k = true ∧ ∀ j : Fin 16, j < k → key.get j = false := by
  simp only [firstPressed, List.findIdx?_eq_some_iff_getElem, Vector.length_toList, Vector.getElem_toList,
    Vector.get_eq_getElem, id_eq, Bool.not_eq_true]
  constructor
  · rintro ⟨_, hpressed, hlower⟩
    exact ⟨hpressed, fun j hj => hlower j.val hj⟩
  · rintro ⟨hpressed, hlower⟩
    exact ⟨k.isLt, hpressed, fun j hj => hlower ⟨j, hj.trans k.isLt⟩ hj⟩

theorem firstPressed_eq_none_iff (key : Vector Bool 16) :
    firstPressed key = none ↔ ∀ k : Fin 16, key.get k = false := by
  simp only [firstPressed, List.findIdx?_eq_none_iff, List.forall_mem_iff_getElem, Vector.length_toList,
    Vector.getElem_toList, Vector.get_eq_getElem, id_eq, Fin.forall_iff]

/-! ### The timer and key arms of exec -/

theorem exec_ldVxDt (x : Reg) (s : State) : exec (.ldVxDt x) s = .next (s.writeV x s.DT) := rfl

theorem exec_ldDtVx (x : Reg) (s : State) : exec (.ldDtVx x) s = .next (s.setDT (s.readV x)) := rfl

theorem exec_ldStVx (x : Reg) (s : State) : exec (.ldStVx x) s = .next (s.setST (s.readV x)) := rfl

theorem exec_ldVxK_of_some (x : Reg) {s : State} {k : Nat} (h : firstPressed s.key = some k) :
    exec (.ldVxK x) s = .next (s.writeV x (BitVec.ofNat 8 k)) := by
  simp only [exec, execLdVxK, h]

theorem exec_ldVxK_of_none (x : Reg) {s : State} (h : firstPressed s.key = none) :
    exec (.ldVxK x) s = .next (s.jumpTo (s.pc - 2#16)) := by
  simp only [exec, execLdVxK, h]

/-- A key's index fits a byte. -/
theorem keyIndex_toNat (k : Fin 16) : (BitVec.ofNat 8 k.val).toNat = k.val :=
  Nat.mod_eq_of_lt (k.isLt.trans (by decide))

/-- Settles O43: the three answer `writeV`, `setDT` and `setST`, each of one byte. -/
theorem timerTransfersMoveOneByte : Obligations.TimerTransfersMoveOneByte := by
  intro x s
  refine ⟨?ldVxDt, ?ldDtVx, ?ldStVx⟩
  case ldVxDt => exact ⟨_, exec_ldVxDt x s, State.readV_writeV_same s x s.DT, onlyRegisters_writeV s x s.DT⟩
  case ldDtVx => exact ⟨_, exec_ldDtVx x s, State.setDT_DT s (s.readV x), rfl⟩
  case ldStVx => exact ⟨_, exec_ldStVx x s, State.setST_ST s (s.readV x), rfl⟩

/-- Settles O44: the scan finds `k` exactly when `k` is pressed and no lower key is, and nothing exactly when no key
is pressed. -/
theorem waitForKeyTakesLowest : Obligations.WaitForKeyTakesLowest := by
  intro x s
  constructor
  · intro k hpressed hlower
    have hscan : firstPressed s.key = some k.val := (firstPressed_eq_some_iff s.key k).mpr ⟨hpressed, hlower⟩
    exact ⟨_, exec_ldVxK_of_some x hscan, by rw [State.readV_writeV_same, keyIndex_toNat],
      onlyRegisters_writeV s x _⟩
  · intro hnone
    have hscan : firstPressed s.key = none := (firstPressed_eq_none_iff s.key).mpr hnone
    exact ⟨_, exec_ldVxK_of_none x hscan, State.jumpTo_pc s _, onlyPc_jumpTo s _⟩

end Sys2Proof.Machine
end

section
/-! Display: the clear screen and CLS (R241). -/

namespace Sys2Proof.Machine

@[simp] theorem Framebuffer.pixel_clear (px : Fin 64) (py : Fin 32) :
    Framebuffer.clear.pixel px py = false := by
  have hrow : Framebuffer.clear.get py = 0#64 := Vector.getElem_replicate py.isLt
  rw [Framebuffer.pixel, hrow, BitVec.getLsbD_zero]

theorem exec_cls (s : State) : exec .cls s = .next (s.setFb Framebuffer.clear) := rfl

/-- Placing a framebuffer changes nothing else: with the old one back, the state is the old one. -/
theorem State.setFb_restore (s : State) (f : Framebuffer) : { s.setFb f with fb := s.fb } = s := rfl

/-- Settles O52: CLS answers `setFb` of the clear screen, every row of which is zero. -/
theorem clsClearsEveryPixel : Obligations.ClsClearsEveryPixel := fun s =>
  ⟨_, exec_cls s, Framebuffer.pixel_clear, State.setFb_restore s Framebuffer.clear⟩

end Sys2Proof.Machine
end

section
/-! The end of a frame: the audio gate and the timers' tick (R280, R283). -/

namespace Sys2Proof.Machine

variable {s : State}

theorem step_of_audio (h : s.SEQ.phase = .audio) : step s = .next s.audioPhase := by
  simp only [step, stepWith, h]

theorem step_of_timers (h : s.SEQ.phase = .timers) : step s = .next s.timersPhase := by
  simp only [step, stepWith, h]

/-! ### The audio gate (R283) -/

/-- The commands sent when the gate should be `want` and is `active`: one on a crossing, else none (R283). -/
def gateCommands : (want active : Bool) → List Output
  | true, false => [.audioStart]
  | false, true => [.audioStop]
  | true, true => []
  | false, false => []

@[simp] theorem gateCommands_self (active : Bool) : gateCommands active active = [] := by
  cases active <;> rfl

/-- Everything the AUDIO phase does, crossing or not. -/
theorem State.audioPhase_eq (s : State) : s.audioPhase =
    { s with
      audioActive := s.ST != 0#8
      out := s.out ++ gateCommands (s.ST != 0#8) s.audioActive
      SEQ := { s.SEQ with phase := .timers } } := by
  unfold State.audioPhase
  cases hwant : s.ST != 0#8 <;> cases hactive : s.audioActive
  case true.false => rfl
  case false.true => rfl
  case false.false | true.true => cases s; cases hactive; simp [State.setPhase]

/-- Settles O27: the gate becomes `ST ≠ 0`, and `gateCommands` of its two values is what is sent. -/
theorem audioGateIsEdgeTriggered : Obligations.AudioGateIsEdgeTriggered := by
  intro s hphase
  refine ⟨s.audioPhase, step_of_audio hphase, ?_⟩
  rw [State.audioPhase_eq]
  refine ⟨bne_iff_ne, ?start, ?stop, ?quiet, rfl, rfl⟩
  case start =>
    intro hST hoff
    have hwant : (s.ST != 0#8) = true := bne_iff_ne.mpr hST
    simp only [hwant, hoff, gateCommands]
  case stop =>
    intro hST hon
    have hwant : (s.ST != 0#8) = false := bne_eq_false_iff_eq.mpr hST
    simp only [hwant, hon, gateCommands]
  case quiet =>
    intro hsame
    have hwant : (s.ST != 0#8) = s.audioActive := Bool.eq_iff_iff.mpr (bne_iff_ne.trans hsame)
    simp only [hwant, gateCommands_self, List.append_nil]

/-! ### The timers' tick (R280) -/

/-- The tick is natural subtraction: the floor at 0 is what keeps the byte from wrapping. -/
@[simp] theorem tick_toNat (b : Byte) : (tick b).toNat = b.toNat - 1 := by
  unfold tick
  split
  · next hpos => exact BitVec.toNat_sub_of_le hpos
  · next hzero => omega

/-- Settles O28: the phase writes each timer's tick and nothing else. -/
theorem timersPhaseTicksBothTimers : Obligations.TimersPhaseTicksBothTimers := fun s hphase =>
  ⟨s.timersPhase, step_of_timers hphase, tick_toNat s.DT, tick_toNat s.ST, rfl, rfl⟩

end Sys2Proof.Machine
end

section
/-! Encoding: the fields of a packed word, and the decoder as the encoder's inverse (R65, R90 to R97, R101). -/

namespace Sys2Proof

/-! ### The fields of a packed word, and a word packed again from its fields (R91, R92) -/

@[simp] theorem fieldFamily_packA (op : BitVec 4) (nnn : Addr12) : fieldFamily (packA op nnn) = op :=
  BitVec.extractLsb'_append_eq_left

@[simp] theorem fieldNNN_packA (op : BitVec 4) (nnn : Addr12) : fieldNNN (packA op nnn) = nnn :=
  BitVec.extractLsb'_append_eq_right

@[simp] theorem fieldFamily_packXK (op : BitVec 4) (x : Reg) (kk : Byte) : fieldFamily (packXK op x kk) = op :=
  fieldFamily_packA op (x ++ kk)

@[simp] theorem fieldX_packXK (op : BitVec 4) (x : Reg) (kk : Byte) : fieldX (packXK op x kk) = x :=
  (BitVec.extractLsb'_append_eq_of_add_le (by decide)).trans BitVec.extractLsb'_append_eq_left

@[simp] theorem fieldKK_packXK (op : BitVec 4) (x : Reg) (kk : Byte) : fieldKK (packXK op x kk) = kk :=
  (BitVec.extractLsb'_append_eq_of_add_le (by decide)).trans BitVec.extractLsb'_append_eq_right

@[simp] theorem fieldFamily_packXYN (op : BitVec 4) (x y : Reg) (n : Count) : fieldFamily (packXYN op x y n) = op :=
  fieldFamily_packA op (x ++ (y ++ n))

@[simp] theorem fieldX_packXYN (op : BitVec 4) (x y : Reg) (n : Count) : fieldX (packXYN op x y n) = x :=
  fieldX_packXK op x (y ++ n)

@[simp] theorem fieldY_packXYN (op : BitVec 4) (x y : Reg) (n : Count) : fieldY (packXYN op x y n) = y :=
  ((BitVec.extractLsb'_append_eq_of_add_le (by decide)).trans
    (BitVec.extractLsb'_append_eq_of_add_le (by decide))).trans BitVec.extractLsb'_append_eq_left

@[simp] theorem fieldN_packXYN (op : BitVec 4) (x y : Reg) (n : Count) : fieldN (packXYN op x y n) = n :=
  ((BitVec.extractLsb'_append_eq_of_add_le (by decide)).trans
    (BitVec.extractLsb'_append_eq_of_add_le (by decide))).trans BitVec.extractLsb'_append_eq_right

theorem packA_fields (w : Word) : packA (fieldFamily w) (fieldNNN w) = w :=
  BitVec.extractLsb'_append_extractLsb'

theorem fieldX_append_fieldKK (w : Word) : fieldX w ++ fieldKK w = fieldNNN w :=
  BitVec.extractLsb'_append_extractLsb'_eq_extractLsb' rfl

theorem fieldY_append_fieldN (w : Word) : fieldY w ++ fieldN w = fieldKK w :=
  BitVec.extractLsb'_append_extractLsb'_eq_extractLsb' rfl

theorem packXK_fields (w : Word) : packXK (fieldFamily w) (fieldX w) (fieldKK w) = w := by
  rw [packXK, fieldX_append_fieldKK]
  exact packA_fields w

theorem packXYN_fields (w : Word) : packXYN (fieldFamily w) (fieldX w) (fieldY w) (fieldN w) = w := by
  rw [packXYN, fieldY_append_fieldN]
  exact packXK_fields w

/-- A word's two bytes, the high byte first, make the word (R65). -/
theorem wordOfBytes_highByte_lowByte (w : Word) : wordOfBytes (highByte w) (lowByte w) = w :=
  BitVec.extractLsb'_append_extractLsb'

/-! ### Decoding an instruction's word -/

/-- The words of CLS and RET are the only ones SYS's pattern shares (R95). -/
theorem decode_packA_zero {nnn : Addr12} (h : (Instr.sys nnn).wellFormed = true) :
    decode false (packA 0x0#4 nnn) = .known (.sys nnn) := by
  obtain ⟨hcls, hret⟩ : nnn ≠ 0x0E0#12 ∧ nnn ≠ 0x0EE#12 := by simpa [Instr.wellFormed] using h
  have hw : ∀ m : Addr12, nnn ≠ m → packA 0x0#4 nnn ≠ packA 0x0#4 m := fun m hm e =>
    hm (by simpa using congrArg fieldNNN e)
  have hclsWord : packA 0x0#4 nnn ≠ 0x00E0#16 := hw 0x0E0#12 hcls
  have hretWord : packA 0x0#4 nnn ≠ 0x00EE#16 := hw 0x0EE#12 hret
  simp [decode, decodeFamily0, hclsWord, hretWord]

/-- Every well-formed instruction is what its word decodes to. -/
theorem decode_encode {i : Instr} (h : i.wellFormed = true) : decode false (encode i) = .known i := by
  cases i
  case sys nnn => exact decode_packA_zero h
  case cls | ret => rfl
  case skp | sknp => simp [encode, decode, decodeFamilyE]
  case ldVxDt | ldVxK | ldDtVx | ldStVx | addI | ldF | ldB | ldMemVx | ldVxMem =>
    simp [encode, decode, decodeFamilyF]
  case ldReg | orReg | andReg | xorReg | addReg | sub | shr | subn | shl =>
    simp [encode, decode, decodeFamily8]
  all_goals simp [encode, decode]

/-- Settles O2: the two bytes make the instruction's word again, and its fields are the packed ones. -/
theorem decodeInvertsEncode : Obligations.DecodeInvertsEncode := by
  intro i rest hwf
  have hbytes : decodeBytes false (encodeBytes i ++ rest) =
      some (decode false (wordOfBytes (highByte (encode i)) (lowByte (encode i))), rest) := rfl
  rw [hbytes, wordOfBytes_highByte_lowByte, decode_encode hwf]

/-! ### Encoding what a word decodes to -/

theorem fieldFamily_eq_of_toNat {w : Word} {k : Nat} (h : (fieldFamily w).toNat = k) :
    fieldFamily w = BitVec.ofNat 4 k :=
  BitVec.eq_of_toNat_eq (by simp [← h])

/-- A word of this family is the family's nibble packed with the word's other fields. -/
theorem packA_of_family {w : Word} {k : Nat} (h : (fieldFamily w).toNat = k) :
    packA (BitVec.ofNat 4 k) (fieldNNN w) = w := by
  rw [← fieldFamily_eq_of_toNat h, packA_fields]

theorem packXK_of_family {w : Word} {k : Nat} (h : (fieldFamily w).toNat = k) :
    packXK (BitVec.ofNat 4 k) (fieldX w) (fieldKK w) = w := by
  rw [← fieldFamily_eq_of_toNat h, packXK_fields]

theorem packXYN_of_family {w : Word} {k : Nat} (h : (fieldFamily w).toNat = k) :
    packXYN (BitVec.ofNat 4 k) (fieldX w) (fieldY w) (fieldN w) = w := by
  rw [← fieldFamily_eq_of_toNat h, packXYN_fields]

/-- The word of an instruction of family E or F, whose low byte is the sub-code. -/
theorem packXK_of_subcode {w : Word} {k sub : Nat} (h : (fieldFamily w).toNat = k) (hsub : (fieldKK w).toNat = sub) :
    packXK (BitVec.ofNat 4 k) (fieldX w) (BitVec.ofNat 8 sub) = w := by
  simpa [← hsub] using packXK_of_family h

/-- The word of an instruction of family 5, 8 or 9, whose last nibble is the sub-code. -/
theorem packXYN_of_subcode {w : Word} {k sub : Nat} (h : (fieldFamily w).toNat = k) (hsub : (fieldN w).toNat = sub) :
    packXYN (BitVec.ofNat 4 k) (fieldX w) (fieldY w) (BitVec.ofNat 4 sub) = w := by
  simpa [← hsub] using packXYN_of_family h

/-- A SYS whose word is neither CLS's nor RET's is well formed (R95). -/
theorem sys_wellFormed {w : Word} {nnn : Addr12} (hw : packA 0x0#4 nnn = w) (hcls : w ≠ 0x00E0#16) (hret : w ≠ 0x00EE#16) :
    (Instr.sys nnn).wellFormed = true := by
  have hne : ∀ m : Addr12, w ≠ packA 0x0#4 m → nnn ≠ m := fun m hm e => hm (by rw [← e, hw])
  simpa [Instr.wellFormed] using And.intro (hne 0x0E0#12 hcls) (hne 0x0EE#12 hret)

theorem encode_of_decodeFamily0 {u : Bool} {w : Word} {i : Instr} (hf : (fieldFamily w).toNat = 0)
    (h : decodeFamily0 u w = .known i) : encode i = w ∧ i.wellFormed = true := by
  have hw := packA_of_family hf
  unfold decodeFamily0 at h
  split at h
  · next hcls => cases h; exact ⟨hcls.symm, rfl⟩
  split at h
  · next hret => cases h; exact ⟨hret.symm, rfl⟩
  split at h
  · cases h
  · next hcls hret _ =>
    cases h
    exact ⟨hw, sys_wellFormed hw hcls hret⟩

theorem encode_of_decodeFamily8 {w : Word} {i : Instr} (hf : (fieldFamily w).toNat = 8)
    (h : decodeFamily8 w = .known i) : encode i = w ∧ i.wellFormed = true := by
  unfold decodeFamily8 at h
  split at h <;> cases h <;> exact ⟨packXYN_of_subcode hf ‹_›, rfl⟩

theorem encode_of_decodeFamilyE {w : Word} {i : Instr} (hf : (fieldFamily w).toNat = 0xE)
    (h : decodeFamilyE w = .known i) : encode i = w ∧ i.wellFormed = true := by
  unfold decodeFamilyE at h
  split at h <;> cases h <;> exact ⟨packXK_of_subcode hf ‹_›, rfl⟩

theorem encode_of_decodeFamilyF {w : Word} {i : Instr} (hf : (fieldFamily w).toNat = 0xF)
    (h : decodeFamilyF w = .known i) : encode i = w ∧ i.wellFormed = true := by
  unfold decodeFamilyF at h
  split at h <;> cases h <;> exact ⟨packXK_of_subcode hf ‹_›, rfl⟩

/-- Settles O3: every known word is packed again from the fields its instruction took. -/
theorem encodeInvertsDecode : Obligations.EncodeInvertsDecode := by
  intro u w i h
  unfold decode at h
  split at h
  case h_1 hf => exact encode_of_decodeFamily0 hf h
  case h_6 hf | h_10 hf =>
    split at h <;> cases h
    exact ⟨packXYN_of_subcode hf (congrArg BitVec.toNat ‹_›), rfl⟩
  case h_9 hf => exact encode_of_decodeFamily8 hf h
  case h_15 hf => exact encode_of_decodeFamilyE hf h
  case h_16 hf => exact encode_of_decodeFamilyF hf h
  case h_2 hf | h_3 hf | h_11 hf | h_12 hf => cases h; exact ⟨packA_of_family hf, rfl⟩
  case h_4 hf | h_5 hf | h_7 hf | h_8 hf | h_13 hf => cases h; exact ⟨packXK_of_family hf, rfl⟩
  case h_14 hf => cases h; exact ⟨packXYN_of_family hf, rfl⟩
  case h_17 => cases h

/-! ### The opcode table's rows (R95, R101) -/

/-- Every instruction's word lies in its own row. -/
theorem encode_matches_tableRow (i : Instr) : encode i &&& (tableRow i).1 = (tableRow i).2 := by
  open Laws.TableRow in
  cases i
  exacts [cls, jp _, call _, ret, seImm _ _, sneImm _ _, seReg _ _, sneReg _ _, ldImm _ _, ldReg _ _, addImm _ _,
    orReg _ _, andReg _ _, xorReg _ _, addReg _ _, sub _ _, shr _ _, subn _ _, shl _ _, ldI _, jpV0 _, rnd _ _,
    drw _ _ _, skp _, sknp _, ldVxDt _, ldVxK _, ldDtVx _, ldStVx _, addI _, ldF _, ldB _, ldMemVx _, ldVxMem _, sys _]

/-- A word that matches a format A row is packed from the row's family. -/
theorem packA_of_masked {w : Word} {op : BitVec 4} (h : w &&& 0xF000#16 = op ++ 0#12) :
    packA op (fieldNNN w) = w := by
  have hop : fieldFamily w = op := by
    have hpack : packA (fieldFamily w) 0#12 = packA op 0#12 := by
      rw [← packA_fields w, Laws.TableRow.packA_masked] at h
      exact h
    simpa using congrArg fieldFamily hpack
  rw [← hop, packA_fields]

theorem packXK_of_masked {w : Word} {op : BitVec 4} (h : w &&& 0xF000#16 = op ++ 0#12) :
    packXK op (fieldX w) (fieldKK w) = w := by
  rw [packXK, fieldX_append_fieldKK]
  exact packA_of_masked h

theorem packXYN_of_masked {w : Word} {op : BitVec 4} (h : w &&& 0xF000#16 = op ++ 0#12) :
    packXYN op (fieldX w) (fieldY w) (fieldN w) = w := by
  rw [packXYN, fieldY_append_fieldN]
  exact packXK_of_masked h

/-- A word that matches a row with a low byte is packed from the row's family and that byte. -/
theorem packXK_of_masked_subcode {w : Word} {op : BitVec 4} {sub : Byte}
    (h : w &&& 0xF0FF#16 = packXK op 0x0#4 sub) : packXK op (fieldX w) sub = w := by
  have hpack : packXK (fieldFamily w) 0x0#4 (fieldKK w) = packXK op 0x0#4 sub := by
    rw [← packXK_fields w, Laws.TableRow.packX_masked] at h
    exact h
  have hop : fieldFamily w = op := by simpa using congrArg fieldFamily hpack
  have hsub : fieldKK w = sub := by simpa using congrArg fieldKK hpack
  rw [← hop, ← hsub, packXK_fields]

/-- A word that matches a row with a last nibble is packed from the row's family and that nibble. -/
theorem packXYN_of_masked_subcode {w : Word} {op sub : BitVec 4}
    (h : w &&& 0xF00F#16 = packXYN op 0x0#4 0x0#4 sub) : packXYN op (fieldX w) (fieldY w) sub = w := by
  have hpack : packXYN (fieldFamily w) 0x0#4 0x0#4 (fieldN w) = packXYN op 0x0#4 0x0#4 sub := by
    rw [← packXYN_fields w, Laws.TableRow.packXY_masked] at h
    exact h
  have hop : fieldFamily w = op := by simpa using congrArg fieldFamily hpack
  have hsub : fieldN w = sub := by simpa using congrArg fieldN hpack
  rw [← hop, ← hsub, packXYN_fields]

/-- A word that matches a row, CLS's and RET's words shut out of SYS's, is the word of an instruction of that row. -/
theorem exists_encode_of_masked {w : Word} (i : Instr) (h : w &&& (tableRow i).1 = (tableRow i).2)
    (hsys : tableRow i = (0xF000#16, 0x0000#16) → w ≠ 0x00E0#16 ∧ w ≠ 0x00EE#16) :
    ∃ j : Instr, encode j = w ∧ j.wellFormed = true ∧ tableRow j = tableRow i := by
  cases i
  case cls | ret => exact ⟨_, (BitVec.and_allOnes (x := w) ▸ h).symm, rfl, rfl⟩
  case sys =>
    obtain ⟨hcls, hret⟩ := hsys rfl
    have hw : packA 0x0#4 (fieldNNN w) = w := packA_of_masked h
    exact ⟨.sys (fieldNNN w), hw, sys_wellFormed hw hcls hret, rfl⟩
  case jp => exact ⟨.jp _, packA_of_masked h, rfl, rfl⟩
  case call => exact ⟨.call _, packA_of_masked h, rfl, rfl⟩
  case ldI => exact ⟨.ldI _, packA_of_masked h, rfl, rfl⟩
  case jpV0 => exact ⟨.jpV0 _, packA_of_masked h, rfl, rfl⟩
  case seImm => exact ⟨.seImm _ _, packXK_of_masked h, rfl, rfl⟩
  case sneImm => exact ⟨.sneImm _ _, packXK_of_masked h, rfl, rfl⟩
  case ldImm => exact ⟨.ldImm _ _, packXK_of_masked h, rfl, rfl⟩
  case addImm => exact ⟨.addImm _ _, packXK_of_masked h, rfl, rfl⟩
  case rnd => exact ⟨.rnd _ _, packXK_of_masked h, rfl, rfl⟩
  case drw => exact ⟨.drw _ _ _, packXYN_of_masked h, rfl, rfl⟩
  case seReg => exact ⟨.seReg _ _, packXYN_of_masked_subcode h, rfl, rfl⟩
  case sneReg => exact ⟨.sneReg _ _, packXYN_of_masked_subcode h, rfl, rfl⟩
  case ldReg => exact ⟨.ldReg _ _, packXYN_of_masked_subcode h, rfl, rfl⟩
  case orReg => exact ⟨.orReg _ _, packXYN_of_masked_subcode h, rfl, rfl⟩
  case andReg => exact ⟨.andReg _ _, packXYN_of_masked_subcode h, rfl, rfl⟩
  case xorReg => exact ⟨.xorReg _ _, packXYN_of_masked_subcode h, rfl, rfl⟩
  case addReg => exact ⟨.addReg _ _, packXYN_of_masked_subcode h, rfl, rfl⟩
  case sub => exact ⟨.sub _ _, packXYN_of_masked_subcode h, rfl, rfl⟩
  case shr => exact ⟨.shr _ _, packXYN_of_masked_subcode h, rfl, rfl⟩
  case subn => exact ⟨.subn _ _, packXYN_of_masked_subcode h, rfl, rfl⟩
  case shl => exact ⟨.shl _ _, packXYN_of_masked_subcode h, rfl, rfl⟩
  case skp => exact ⟨.skp _, packXK_of_masked_subcode h, rfl, rfl⟩
  case sknp => exact ⟨.sknp _, packXK_of_masked_subcode h, rfl, rfl⟩
  case ldVxDt => exact ⟨.ldVxDt _, packXK_of_masked_subcode h, rfl, rfl⟩
  case ldVxK => exact ⟨.ldVxK _, packXK_of_masked_subcode h, rfl, rfl⟩
  case ldDtVx => exact ⟨.ldDtVx _, packXK_of_masked_subcode h, rfl, rfl⟩
  case ldStVx => exact ⟨.ldStVx _, packXK_of_masked_subcode h, rfl, rfl⟩
  case addI => exact ⟨.addI _, packXK_of_masked_subcode h, rfl, rfl⟩
  case ldF => exact ⟨.ldF _, packXK_of_masked_subcode h, rfl, rfl⟩
  case ldB => exact ⟨.ldB _, packXK_of_masked_subcode h, rfl, rfl⟩
  case ldMemVx => exact ⟨.ldMemVx _, packXK_of_masked_subcode h, rfl, rfl⟩
  case ldVxMem => exact ⟨.ldVxMem _, packXK_of_masked_subcode h, rfl, rfl⟩

/-- Settles O4: a known word is its instruction's word, which lies in the row; a word of a row is the word of an
instruction of it, which decodes to that instruction. -/
theorem decoderAgreesWithTable : Obligations.DecoderAgreesWithTable := by
  constructor
  · intro w i h
    obtain ⟨henc, -⟩ := encodeInvertsDecode false w i h
    rw [← henc, encode_matches_tableRow]
  · intro w i h hsys
    obtain ⟨j, henc, hwf, hrow⟩ := exists_encode_of_masked i h hsys
    exact ⟨j, by rw [← henc, decode_encode hwf], hrow⟩

/-! ### The UNKNOWN words (R97) -/

/-- The words R97 lists, which are UNKNOWN whatever SYS_IS_UNKNOWN is. -/
def ListedUnknown (w : Word) : Prop :=
  (fieldFamily w = 0x5#4 ∧ fieldN w ≠ 0x0#4) ∨
  (fieldFamily w = 0x8#4 ∧ fieldN w ∈ [0x8#4, 0x9#4, 0xA#4, 0xB#4, 0xC#4, 0xD#4, 0xF#4]) ∨
  (fieldFamily w = 0x9#4 ∧ fieldN w ≠ 0x0#4) ∨
  (fieldFamily w = 0xE#4 ∧ fieldKK w ∉ [0x9E#8, 0xA1#8]) ∨
  (fieldFamily w = 0xF#4 ∧
    fieldKK w ∉ [0x07#8, 0x0A#8, 0x15#8, 0x18#8, 0x1E#8, 0x29#8, 0x33#8, 0x55#8, 0x65#8])

theorem decodeFamily0_eq_unknown_iff (u : Bool) (w w' : Word) : decodeFamily0 u w = .unknown w' ↔
    w' = w ∧ u = true ∧ w ≠ 0x00E0#16 ∧ w ≠ 0x00EE#16 := by
  unfold decodeFamily0
  by_cases hcls : w = 0x00E0#16
  · simp [hcls]
  by_cases hret : w = 0x00EE#16
  · simp [hret]
  cases u <;> simp [hcls, hret, eq_comm]

theorem decodeFamily8_eq_unknown_iff (w w' : Word) : decodeFamily8 w = .unknown w' ↔
    w' = w ∧ fieldN w ∈ [0x8#4, 0x9#4, 0xA#4, 0xB#4, 0xC#4, 0xD#4, 0xF#4] := by
  unfold decodeFamily8
  split
  case h_10 =>
    have hlt : (fieldN w).toNat < 16 := (fieldN w).isLt
    simp only [imp_false] at *
    simp [← BitVec.toNat_inj, eq_comm (a := w.toNat)]
    omega
  all_goals simp [← BitVec.toNat_inj, *]

theorem decodeFamilyE_eq_unknown_iff (w w' : Word) : decodeFamilyE w = .unknown w' ↔
    w' = w ∧ fieldKK w ∉ [0x9E#8, 0xA1#8] := by
  unfold decodeFamilyE
  split
  case h_3 =>
    simp only [imp_false] at *
    simp [← BitVec.toNat_inj, eq_comm (a := w.toNat), *]
  all_goals simp [← BitVec.toNat_inj, *]

theorem decodeFamilyF_eq_unknown_iff (w w' : Word) : decodeFamilyF w = .unknown w' ↔
    w' = w ∧ fieldKK w ∉ [0x07#8, 0x0A#8, 0x15#8, 0x18#8, 0x1E#8, 0x29#8, 0x33#8, 0x55#8, 0x65#8] := by
  unfold decodeFamilyF
  split
  case h_10 =>
    simp only [imp_false] at *
    simp [← BitVec.toNat_inj, eq_comm (a := w.toNat), *]
  all_goals simp [← BitVec.toNat_inj, *]

/-- UNKNOWN carries its own word, and the words that decode to it are the listed ones and, with SYS_IS_UNKNOWN, SYS's. -/
theorem decode_eq_unknown_iff (u : Bool) (w w' : Word) : decode u w = .unknown w' ↔
    w' = w ∧ (ListedUnknown w ∨ u = true ∧ fieldFamily w = 0x0#4 ∧ w ≠ 0x00E0#16 ∧ w ≠ 0x00EE#16) := by
  unfold decode ListedUnknown
  split
  case h_1 hf => simp [fieldFamily_eq_of_toNat hf, decodeFamily0_eq_unknown_iff]
  case h_6 hf | h_10 hf => split <;> simp [fieldFamily_eq_of_toNat hf, eq_comm (a := w), *]
  case h_9 hf => simp [fieldFamily_eq_of_toNat hf, decodeFamily8_eq_unknown_iff]
  case h_15 hf => simp [fieldFamily_eq_of_toNat hf, decodeFamilyE_eq_unknown_iff]
  case h_16 hf => simp [fieldFamily_eq_of_toNat hf, decodeFamilyF_eq_unknown_iff]
  case h_17 =>
    have hlt : (fieldFamily w).toNat < 16 := (fieldFamily w).isLt
    simp only [imp_false] at *
    omega
  all_goals next hf => simp [fieldFamily_eq_of_toNat hf]

/-- Settles O5: each sub-decoder's last arm is taken exactly by the listed sub-codes. -/
theorem unknownWordsAreTheListed : Obligations.UnknownWordsAreTheListed := by
  intro w
  change (_ ↔ ListedUnknown w) ∧ (_ ↔ ListedUnknown w ∨ _) ∧ _
  exact ⟨by simp [decode_eq_unknown_iff], by simp [decode_eq_unknown_iff],
    fun u w' h => ((decode_eq_unknown_iff u w w').1 h).1⟩

/-- Settles O1: the words are closed, so the decoder computes each answer. -/
theorem listedWordsDecode : Obligations.ListedWordsDecode := by
  unfold Obligations.ListedWordsDecode
  decide

end Sys2Proof
end

section
/-! Registers: the loads, the logic, the arithmetic with its flag in VF, the shifts, RND and the index register (R121,
R151 to R162, R211 to R213). -/

namespace Sys2Proof.Machine

/-! ### Two writes, the result and the flag (R150, D16) -/

theorem State.readV_writeResultThenFlag_flag (s : State) (x : Reg) (result flag : Byte) :
    (s.writeResultThenFlag x result flag).readV VF = flag :=
  State.readV_writeV_same _ VF flag

theorem State.readV_writeResultThenFlag_result (s : State) {x : Reg} (result flag : Byte) (h : x ≠ VF) :
    (s.writeResultThenFlag x result flag).readV x = result :=
  (State.readV_writeV_other _ flag h).trans (State.readV_writeV_same s x result)

theorem State.readV_writeFlagThenResult_result (s : State) (x : Reg) (flag result : Byte) :
    (s.writeFlagThenResult x flag result).readV x = result :=
  State.readV_writeV_same _ x result

theorem State.readV_writeFlagThenResult_flag (s : State) {x : Reg} (flag result : Byte) (h : x ≠ VF) :
    (s.writeFlagThenResult x flag result).readV VF = flag :=
  (State.readV_writeV_other _ result h.symm).trans (State.readV_writeV_same s VF flag)

/-- Registers left alone by two transitions are left alone by both in a row. -/
theorem OnlyRegisters.trans {xs ys : List Reg} {s t u : State} (hst : OnlyRegisters xs s t) (htu : OnlyRegisters ys t u) :
    OnlyRegisters (xs ++ ys) s u := by
  obtain ⟨hregs, hrest⟩ := hst
  obtain ⟨hregs', hrest'⟩ := htu
  constructor
  · intro j hj
    rw [List.mem_append, not_or] at hj
    rw [hregs' j hj.2, hregs j hj.1]
  · exact (congrArg (fun r : State => { r with v := s.v }) hrest').trans hrest

theorem OnlyRegisters.mono {xs ys : List Reg} {s t : State} (h : OnlyRegisters xs s t) (hsub : ∀ j ∈ xs, j ∈ ys) :
    OnlyRegisters ys s t :=
  ⟨fun j hj => h.1 j fun hx => hj (hsub j hx), h.2⟩

theorem onlyRegisters_writeResultThenFlag (s : State) (x : Reg) (result flag : Byte) :
    OnlyRegisters [x, VF] s (s.writeResultThenFlag x result flag) :=
  (onlyRegisters_writeV s x result).trans (onlyRegisters_writeV _ VF flag)

theorem onlyRegisters_writeFlagThenResult (s : State) (x : Reg) (flag result : Byte) :
    OnlyRegisters [x, VF] s (s.writeFlagThenResult x flag result) :=
  ((onlyRegisters_writeV s VF flag).trans (onlyRegisters_writeV _ x result)).mono (by simp)

/-! ### Results and flags as numbers -/

@[simp] theorem addResult_toNat (a b : Byte) : (addResult a b).toNat = (a.toNat + b.toNat) % 256 :=
  BitVec.toNat_ofNat _ _

@[simp] theorem subResult_toNat (a b : Byte) : (subResult a b).toNat = (a.toNat + 256 - b.toNat) % 256 :=
  BitVec.toNat_ofNat _ _

theorem addFlag_eq (a b : Byte) : addFlag a b = if a.toNat + b.toNat < 256 then 1#8 else 0#8 := by
  simp [addFlag, flagByte]

theorem subFlag_eq (a b : Byte) : subFlag a b = if a.toNat < b.toNat then 0#8 else 1#8 := by
  by_cases h : a.toNat < b.toNat <;> simp [subFlag, flagByte, h]

@[simp] theorem shrResult_toNat (b : Byte) : (shrResult b).toNat = b.toNat / 2 := by
  rw [shrResult, BitVec.toNat_ushiftRight, Nat.shiftRight_eq_div_pow]

@[simp] theorem shrFlag_toNat (b : Byte) : (shrFlag b).toNat = b.toNat % 2 := by
  rw [shrFlag, BitVec.toNat_and]
  exact Nat.and_one_is_mod b.toNat

@[simp] theorem shlResult_toNat (b : Byte) : (shlResult b).toNat = b.toNat * 2 % 256 := by
  rw [shlResult, BitVec.toNat_shiftLeft, Nat.shiftLeft_eq]

@[simp] theorem shlFlag_toNat (b : Byte) : (shlFlag b).toNat = b.toNat / 128 := by
  rw [shlFlag, BitVec.toNat_ushiftRight, Nat.shiftRight_eq_div_pow]

/-- The highest glyph address, 0x54B, fits I (R213). -/
@[simp] theorem glyphAddress_toNat (v : Byte) : (glyphAddress v).toNat = 0x050 + 5 * v.toNat := by
  have hv := v.isLt
  simp only [glyphAddress, fontBase, BitVec.toNat_ofNat]
  omega

/-! ### The arms of exec -/

theorem exec_sys (nnn : Addr12) (s : State) : exec (.sys nnn) s = .next s := rfl

theorem exec_ldImm (x : Reg) (kk : Byte) (s : State) : exec (.ldImm x kk) s = .next (s.writeV x kk) := rfl

theorem exec_addImm (x : Reg) (kk : Byte) (s : State) :
    exec (.addImm x kk) s = .next (s.writeV x (addResult (s.readV x) kk)) := rfl

theorem exec_ldReg (x y : Reg) (s : State) : exec (.ldReg x y) s = .next (s.writeV x (s.readV y)) := rfl

theorem exec_orReg (x y : Reg) (s : State) :
    exec (.orReg x y) s = .next (s.writeV x (s.readV x ||| s.readV y)) := rfl

theorem exec_andReg (x y : Reg) (s : State) :
    exec (.andReg x y) s = .next (s.writeV x (s.readV x &&& s.readV y)) := rfl

theorem exec_xorReg (x y : Reg) (s : State) :
    exec (.xorReg x y) s = .next (s.writeV x (s.readV x ^^^ s.readV y)) := rfl

theorem exec_addReg (x y : Reg) (s : State) : exec (.addReg x y) s =
    .next (s.writeResultThenFlag x (addResult (s.readV x) (s.readV y)) (addFlag (s.readV x) (s.readV y))) := rfl

theorem exec_sub (x y : Reg) (s : State) : exec (.sub x y) s =
    .next (s.writeResultThenFlag x (subResult (s.readV x) (s.readV y)) (subFlag (s.readV x) (s.readV y))) := rfl

theorem exec_subn (x y : Reg) (s : State) : exec (.subn x y) s =
    .next (s.writeResultThenFlag x (subResult (s.readV y) (s.readV x)) (subFlag (s.readV y) (s.readV x))) := rfl

theorem exec_shr (x y : Reg) (s : State) : exec (.shr x y) s =
    .next (s.writeFlagThenResult x (shrFlag (s.readV y)) (shrResult (s.readV y))) := rfl

theorem exec_shl (x y : Reg) (s : State) : exec (.shl x y) s =
    .next (s.writeFlagThenResult x (shlFlag (s.readV y)) (shlResult (s.readV y))) := rfl

theorem exec_rnd (x : Reg) (kk : Byte) (s : State) : exec (.rnd x kk) s =
    .next (State.writeV { s with draws := s.draws + 1 } x (Config.rnd8 s.draws &&& kk)) := rfl

theorem exec_ldI (nnn : Addr12) (s : State) : exec (.ldI nnn) s = .next (s.setI (addrToWord nnn)) := rfl

theorem exec_addI (x : Reg) (s : State) : exec (.addI x) s = .next (s.setI (s.I + byteToWord (s.readV x))) := rfl

theorem exec_ldF (x : Reg) (s : State) : exec (.ldF x) s = .next (s.setI (glyphAddress (s.readV x))) := rfl

/-- Placing a word in I changes nothing else: with the old one back, the state is the old one. -/
theorem State.setI_restore (s : State) (w : Word) : { s.setI w with I := s.I } = s := rfl

/-- Settles O31: SYS's arm answers the state itself. -/
theorem sysDoesNothing : Obligations.SysDoesNothing := fun nnn s => ⟨s, exec_sys nnn s, rfl⟩

/-- Settles O37: each of the six answers one `writeV`. -/
theorem loadsAndLogicWriteOnlyVx : Obligations.LoadsAndLogicWriteOnlyVx := by
  intro x y kk s
  have hsame := State.readV_writeV_same s x
  have honly := onlyRegisters_writeV s x
  refine ⟨?ldImm, ?addImm, ?ldReg, ?orReg, ?andReg, ?xorReg⟩
  case ldImm => exact ⟨_, exec_ldImm x kk s, hsame _, honly _⟩
  case addImm => exact ⟨_, exec_addImm x kk s, by rw [hsame, addResult_toNat], honly _⟩
  case ldReg => exact ⟨_, exec_ldReg x y s, hsame _, honly _⟩
  case orReg => exact ⟨_, exec_orReg x y s, hsame _, honly _⟩
  case andReg => exact ⟨_, exec_andReg x y s, hsame _, honly _⟩
  case xorReg => exact ⟨_, exec_xorReg x y s, hsame _, honly _⟩

/-- Settles O38: the flag is the last write, and it is 1 when the sum stays below 256. -/
theorem addRegInvertsTheCarry : Obligations.AddRegInvertsTheCarry := by
  intro x y s
  refine ⟨_, exec_addReg x y s, fun hx => ?_, ?_, onlyRegisters_writeResultThenFlag s x _ _⟩
  · rw [State.readV_writeResultThenFlag_result s _ _ hx, addResult_toNat]
  · rw [State.readV_writeResultThenFlag_flag, addFlag_eq]

/-- An instruction that answers the difference a - b and its borrow flag in VF (R158, R160). -/
theorem next_subtraction {i : Instr} {x : Reg} {s : State} {a b : Byte}
    (hexec : exec i s = .next (s.writeResultThenFlag x (subResult a b) (subFlag a b))) :
    ∃ t, exec i s = .next t ∧ (x ≠ VF → (t.readV x).toNat = (a.toNat + 256 - b.toNat) % 256) ∧
      t.readV VF = (if a.toNat < b.toNat then 0#8 else 1#8) ∧ OnlyRegisters [x, VF] s t := by
  refine ⟨_, hexec, fun hx => ?_, ?_, onlyRegisters_writeResultThenFlag s x _ _⟩
  · rw [State.readV_writeResultThenFlag_result s _ _ hx, subResult_toNat]
  · rw [State.readV_writeResultThenFlag_flag, subFlag_eq]

/-- Settles O39: SUBN is SUB with the operands exchanged. -/
theorem subtractionsClearVfOnBorrow : Obligations.SubtractionsClearVfOnBorrow := fun x y s =>
  ⟨next_subtraction (exec_sub x y s), next_subtraction (exec_subn x y s)⟩

/-- Settles O40: the result is the last write, and the flag stands unless x is F. -/
theorem shiftsReadVy : Obligations.ShiftsReadVy := by
  intro x y s
  constructor
  · refine ⟨_, exec_shr x y s, ?_, fun hx => ?_, onlyRegisters_writeFlagThenResult s x _ _⟩
    · rw [State.readV_writeFlagThenResult_result, shrResult_toNat]
    · rw [State.readV_writeFlagThenResult_flag s _ _ hx, shrFlag_toNat]
  · refine ⟨_, exec_shl x y s, ?_, fun hx => ?_, onlyRegisters_writeFlagThenResult s x _ _⟩
    · rw [State.readV_writeFlagThenResult_result, shlResult_toNat]
    · rw [State.readV_writeFlagThenResult_flag s _ _ hx, shlFlag_toNat]

/-- Settles O41: the draw is masked bit by bit, so a bit clear in the mask is clear in the result. -/
theorem rndMasksOneDraw : Obligations.RndMasksOneDraw := by
  intro x kk s
  have hread := State.readV_writeV_same { s with draws := s.draws + 1 } x (Config.rnd8 s.draws &&& kk)
  refine ⟨_, exec_rnd x kk s, hread, fun b hb => ?_, rfl, onlyRegisters_writeV _ x _⟩
  rw [hread, BitVec.getLsbD_and, hb, Bool.and_false]

/-- Settles O45: both answer `setI`, and the sum in I is the one of 16-bit words. -/
theorem indexLoadsAndAdds : Obligations.IndexLoadsAndAdds := by
  intro nnn x s
  constructor
  · exact ⟨_, exec_ldI nnn s, addrToWord_toNat nnn, State.setI_restore s _⟩
  · exact ⟨_, exec_addI x s, by rw [State.setI_I, BitVec.toNat_add, byteToWord_toNat], State.setI_restore s _⟩

/-- Settles O46: LD_F answers `setI` of the glyph address, which a 16-bit word holds exactly. -/
theorem fontAddressIsExact : Obligations.FontAddressIsExact := fun x s =>
  ⟨_, exec_ldF x s, glyphAddress_toNat (s.readV x), State.setI_restore s _⟩

end Sys2Proof.Machine
end

section
/-! The return stack and the keypad skips, and what a raised fault is (R123, R124, R130, R190 to R192, R261). -/

namespace Sys2Proof.Machine

/-! ### A raised fault (R260, R261) -/

theorem faultTaken_raiseFault (s : State) (c : FaultCause) (info : Nat) :
    FaultTaken c.code info s (s.raiseFault c info) :=
  ⟨rfl, rfl, rfl, rfl, rfl⟩

/-! ### CALL and RET (R123, R124) -/

/-- A push below the limit fills the slot at sp and counts it (R29). -/
theorem State.push_of_lt {s : State} (w : Word) (h : s.sp.val < 16) :
    s.push w = some { s with stack := s.stack.set s.sp.val w h, sp := ⟨s.sp.val + 1, Nat.succ_lt_succ h⟩ } :=
  dif_pos h

/-- A pop above zero answers the slot below sp (R29). -/
theorem State.pop_of_eq_succ {s : State} {k : Fin 16} (h : s.sp.val = k.val + 1) :
    s.pop = some (s.stack.get k, { s with sp := k.castSucc }) := by
  have hpos : 0 < s.sp.val := by omega
  have hk : s.sp.val - 1 = k.val := by omega
  simp only [State.pop, dif_pos hpos, hk, Vector.get_eq_getElem]
  rfl

theorem exec_call_of_lt (nnn : Addr12) {s : State} (h : s.sp.val < 16) : exec (.call nnn) s =
    .next { s with
      stack := s.stack.set s.sp.val s.pc h
      sp := ⟨s.sp.val + 1, Nat.succ_lt_succ h⟩
      pc := addrToWord nnn } := by
  simp only [exec, execCall, State.push_of_lt s.pc h]
  rfl

theorem exec_call_of_full (nnn : Addr12) {s : State} (h : s.sp.val = 16) :
    exec (.call nnn) s = .next (s.raiseFault .stackOverflow 16) := by
  simp only [exec, execCall, State.push_full s s.pc (Fin.ext h), h]

theorem exec_ret_of_eq_succ {s : State} {k : Fin 16} (h : s.sp.val = k.val + 1) :
    exec .ret s = .next { s with sp := k.castSucc, pc := s.stack.get k } := by
  simp only [exec, execRet, State.pop_of_eq_succ h]
  rfl

theorem exec_ret_of_empty {s : State} (h : s.sp.val = 0) :
    exec .ret s = .next (s.raiseFault .stackUnderflow 0) := by
  simp only [exec, execRet, State.pop_empty s (Fin.ext h)]

/-- Settles O34: below the limit the push sets one slot; at it the push fails and the fault is raised. -/
theorem callPushesOrOverflows : Obligations.CallPushesOrOverflows := by
  intro nnn s
  constructor
  · intro hlt
    refine ⟨_, exec_call_of_lt nnn hlt, fun k => ?_, rfl, addrToWord_toNat nnn, rfl⟩
    simp only [Vector.get_eq_getElem, Vector.getElem_set, eq_comm (a := s.sp.val)]
  · intro hfull
    exact ⟨_, exec_call_of_full nnn hfull, faultTaken_raiseFault s .stackOverflow 16⟩

/-- Settles O35: the pop reads the slot below sp; with none the fault is raised. -/
theorem retPopsOrUnderflows : Obligations.RetPopsOrUnderflows := by
  intro s
  constructor
  · intro k hsp
    exact ⟨_, exec_ret_of_eq_succ hsp, rfl, rfl, rfl⟩
  · intro hempty
    exact ⟨_, exec_ret_of_empty hempty, faultTaken_raiseFault s .stackUnderflow 0⟩

/-- Settles O36: the pop reads the slot that the CALL's push set. -/
theorem retReturnsAfterItsCall : Obligations.RetReturnsAfterItsCall := by
  intro nnn s t u hlt hcall hstack hsp
  rw [exec_call_of_lt nnn hlt] at hcall
  cases hcall
  have hu : u.sp.val = (⟨s.sp.val, hlt⟩ : Fin 16).val + 1 := congrArg Fin.val hsp
  refine ⟨_, exec_ret_of_eq_succ hu, ?_, Fin.ext rfl⟩
  simp only [hstack, Vector.get_eq_getElem, Vector.getElem_set_self]

/-! ### SKP and SKNP (R190 to R192) -/

theorem exec_skp (x : Reg) (s : State) : exec (.skp x) s = .next (s.skipOnKey x true) := rfl

theorem exec_sknp (x : Reg) (s : State) : exec (.sknp x) s = .next (s.skipOnKey x false) := rfl

/-- Settles O42: in range both skip on the key's level, else both raise KEY_RANGE. -/
theorem keySkipsOrRangeFault : Obligations.KeySkipsOrRangeFault := by
  intro x s
  constructor
  · intro k hk
    constructor
    · exact next_skipIf ((exec_skp x s).trans (by rw [State.skipOnKey_inRange s true hk])) beq_iff_eq
    · exact next_skipIf ((exec_sknp x s).trans (by rw [State.skipOnKey_inRange s false hk])) beq_iff_eq
  · intro hrange
    constructor
    · exact ⟨_, exec_skp x s, by
        rw [State.skipOnKey_outOfRange s true hrange]; exact faultTaken_raiseFault s .keyRange _⟩
    · exact ⟨_, exec_sknp x s, by
        rw [State.skipOnKey_outOfRange s false hrange]; exact faultTaken_raiseFault s .keyRange _⟩

end Sys2Proof.Machine
end

section
/-! Memory transfers: storing at I, loading from I, and the fetch that follows a store (R64, R66, R76, R215 to R217). -/

namespace Sys2Proof.Machine

/-! ### Storing at I, all bytes or none (R64) -/

/-- Any byte after a stretch was put: element `c - a` inside the stretch, the old byte outside. -/
theorem Memory.byteAt_putMany {m : Memory} {a : Nat} {bs : List Byte} (hwf : m.wf = true)
    (ha : a + bs.length ≤ memSize) (c : Nat) :
    (m.putMany a bs).byteAt c = if h : a ≤ c ∧ c < a + bs.length then bs[c - a]'(by omega) else m.byteAt c := by
  split
  · next h =>
    have hk := Memory.byteAt_putMany_inside hwf ha (c - a) (by omega)
    rwa [show a + (c - a) = c by omega] at hk
  · next h => exact Memory.byteAt_putMany_outside (by omega)

theorem onlyMemory_putMany (s : State) (a : Nat) (bs : List Byte) :
    OnlyMemory a bs.length s { s with mem := s.mem.putMany a bs } :=
  ⟨fun _ hc => Memory.byteAt_putMany_outside hc, rfl⟩

theorem State.storeAtI_inRange {s : State} {bs : List Byte} (hbs : bs ≠ []) (h : s.I.toNat + bs.length ≤ memSize) :
    s.storeAtI bs = { s with mem := s.mem.putMany s.I.toNat bs } := by
  rw [State.storeAtI_eq s bs hbs, if_pos h]

theorem State.storeAtI_outOfRange {s : State} {bs : List Byte} (hbs : bs ≠ []) (h : ¬ s.I.toNat + bs.length ≤ memSize) :
    s.storeAtI bs = s.raiseFault .memRange (lowestOffending s.I.toNat) := by
  rw [State.storeAtI_eq s bs hbs, if_neg h]

theorem exec_ldB (x : Reg) (s : State) : exec (.ldB x) s = .next (s.storeAtI (bcdDigits (s.readV x))) := rfl

theorem exec_ldMemVx (x : Reg) (s : State) : exec (.ldMemVx x) s = .next (s.storeAtI (s.regsUpTo x)) := rfl

theorem bcdDigits_ne_nil (v : Byte) : bcdDigits v ≠ [] := List.cons_ne_nil _ _

@[simp] theorem bcdDigits_length (v : Byte) : (bcdDigits v).length = 3 := rfl

theorem exec_ldB_inRange (x : Reg) {s : State} (h : s.I.toNat + 2 < 4096) : exec (.ldB x) s =
    .next { s with mem := s.mem.putMany s.I.toNat (bcdDigits (s.readV x)) } := by
  rw [exec_ldB, State.storeAtI_inRange (bcdDigits_ne_nil _) h]

theorem exec_ldB_outOfRange (x : Reg) {s : State} (h : 4096 ≤ s.I.toNat + 2) : exec (.ldB x) s =
    .next (s.raiseFault .memRange (lowestOffending s.I.toNat)) := by
  rw [exec_ldB, State.storeAtI_outOfRange (bcdDigits_ne_nil _) (Nat.not_le.2 (Nat.lt_succ_of_le h))]

theorem exec_ldMemVx_inRange {x : Reg} {s : State} (h : s.I.toNat + x.toNat < 4096) : exec (.ldMemVx x) s =
    .next { s with mem := s.mem.putMany s.I.toNat (s.regsUpTo x) } := by
  rw [exec_ldMemVx, State.storeAtI_inRange (regsUpTo_ne_nil s x) (by rw [State.regsUpTo_length]; exact h)]

theorem exec_ldMemVx_outOfRange {x : Reg} {s : State} (h : 4096 ≤ s.I.toNat + x.toNat) : exec (.ldMemVx x) s =
    .next (s.raiseFault .memRange (lowestOffending s.I.toNat)) := by
  rw [exec_ldMemVx, State.storeAtI_outOfRange (regsUpTo_ne_nil s x)
    (by rw [State.regsUpTo_length]; exact Nat.not_le.2 (Nat.lt_succ_of_le h))]

/-! ### What the two stores leave in memory -/

/-- After LD_B each byte is its digit inside the stored stretch, and the old byte outside. -/
theorem byteAt_putMany_bcdDigits {m : Memory} {a : Nat} (v : Byte) (hwf : m.wf = true) (ha : a + 2 < 4096) (c : Nat) :
    ((m.putMany a (bcdDigits v)).byteAt c).toNat =
      if c = a then v.toNat / 100
      else if c = a + 1 then v.toNat / 10 % 10
      else if c = a + 2 then v.toNat % 10
      else (m.byteAt c).toNat := by
  have hlen : a + (bcdDigits v).length ≤ memSize := ha
  have hin := Memory.byteAt_putMany_inside hwf hlen
  split
  · next h => subst h; exact congrArg BitVec.toNat (hin 0 (by simp))
  split
  · next h => subst h; exact congrArg BitVec.toNat (hin 1 (by simp))
  split
  · next h => subst h; exact congrArg BitVec.toNat (hin 2 (by simp))
  · rw [Memory.byteAt_putMany_outside (by rw [bcdDigits_length]; omega)]

/-- After LD_MEM_VX each byte is its register inside the stored stretch, and the old byte outside. -/
theorem byteAt_putMany_regsUpTo {m : Memory} {a : Nat} (s : State) (x : Reg) (hwf : m.wf = true)
    (ha : a + x.toNat < 4096) (c : Nat) :
    (m.putMany a (s.regsUpTo x)).byteAt c =
      if a ≤ c ∧ c ≤ a + x.toNat then s.readV (BitVec.ofNat 4 (c - a)) else m.byteAt c := by
  have hlen : a + (s.regsUpTo x).length ≤ memSize := by rw [State.regsUpTo_length]; exact ha
  rw [Memory.byteAt_putMany hwf hlen]
  simp only [State.regsUpTo_length, State.regsUpTo_getElem, dite_eq_ite, ← Nat.add_assoc, Nat.lt_succ_iff]

/-- Register k's byte after LD_MEM_VX. -/
theorem byteAt_putMany_regsUpTo_add {m : Memory} {a : Nat} (s : State) {x k : Reg} (hwf : m.wf = true)
    (ha : a + x.toNat < 4096) (hk : k.toNat ≤ x.toNat) :
    (m.putMany a (s.regsUpTo x)).byteAt (a + k.toNat) = s.readV k := by
  rw [byteAt_putMany_regsUpTo s x hwf ha, if_pos (by omega)]
  simp

/-! ### Loading from I (R217) -/

theorem Memory.bytes_getElem (m : Memory) (a n k : Nat) (hk : k < (m.bytes a n).length) :
    (m.bytes a n)[k] = m.byteAt (a + k) := by
  simp [Memory.bytes]

theorem memReadMany_inRange {s : State} {a n : Nat} (h : n = 0 ∨ a + n ≤ memSize) :
    memReadMany a n s = some (s.mem.bytes a n) := by
  rw [memReadMany_eq, if_pos h]

theorem memReadMany_outOfRange {s : State} {a n : Nat} (h : ¬ (n = 0 ∨ a + n ≤ memSize)) :
    memReadMany a n s = none := by
  rw [memReadMany_eq, if_neg h]

theorem exec_ldVxMem_inRange {x : Reg} {s : State} (h : s.I.toNat + x.toNat < 4096) : exec (.ldVxMem x) s =
    .next (s.loadRegs 0 (s.mem.bytes s.I.toNat (x.toNat + 1))) := by
  simp only [exec, execLdVxMem, memReadMany_inRange (s := s) (.inr (show s.I.toNat + (x.toNat + 1) ≤ memSize from h))]

theorem exec_ldVxMem_outOfRange {x : Reg} {s : State} (h : 4096 ≤ s.I.toNat + x.toNat) : exec (.ldVxMem x) s =
    .next (s.raiseFault .memRange (lowestOffending s.I.toNat)) := by
  have hout : ¬ (x.toNat + 1 = 0 ∨ s.I.toNat + (x.toNat + 1) ≤ memSize) := by
    simp only [memSize]
    omega
  simp only [exec, execLdVxMem, memReadMany_outOfRange hout]

/-- A register after LD_VX_MEM: its byte up to x, its old value above. -/
theorem State.readV_loadRegs_bytes (s : State) (x j : Reg) : (s.loadRegs 0 (s.mem.bytes s.I.toNat (x.toNat + 1))).readV j =
    if j.toNat ≤ x.toNat then s.mem.byteAt (s.I.toNat + j.toNat) else s.readV j := by
  have hx := x.isLt
  rw [State.readV_loadRegs _ 0 s j (by rw [Memory.bytes_length]; omega)]
  simp only [Memory.bytes_length, Memory.bytes_getElem, dite_eq_ite, Nat.zero_le, true_and, Nat.zero_add, Nat.sub_zero,
    Nat.lt_succ_iff]

/-! ### The obligations -/

/-- Settles O47: in range the store puts the three digits, else it raises MEM_RANGE. -/
theorem bcdStoresDigitsOrFaults : Obligations.BcdStoresDigitsOrFaults := by
  intro x s hwf
  constructor
  · intro hin
    have hbyte := byteAt_putMany_bcdDigits (s.readV x) hwf hin
    refine ⟨_, exec_ldB_inRange x hin, ?_, ?_, ?_, onlyMemory_putMany s _ (bcdDigits (s.readV x))⟩
    · rw [hbyte, if_pos rfl]
    · rw [hbyte, if_neg (by omega), if_pos rfl]
    · rw [hbyte, if_neg (by omega), if_neg (by omega), if_pos rfl]
  · intro hout
    exact ⟨_, exec_ldB_outOfRange x hout, faultTaken_raiseFault s .memRange _⟩

/-- Settles O48: in range the store puts V0 to Vx, else it raises MEM_RANGE. -/
theorem registerDumpStoresOrFaults : Obligations.RegisterDumpStoresOrFaults := by
  intro x s hwf
  constructor
  · intro hin
    refine ⟨_, exec_ldMemVx_inRange hin, fun k hk => byteAt_putMany_regsUpTo_add s hwf hin hk, ?_⟩
    rw [← State.regsUpTo_length s x]
    exact onlyMemory_putMany s _ _
  · intro hout
    exact ⟨_, exec_ldMemVx_outOfRange hout, faultTaken_raiseFault s .memRange _⟩

/-- Settles O49: in range the bytes go to V0 to Vx alone, else MEM_RANGE is raised. -/
theorem registerLoadReadsOrFaults : Obligations.RegisterLoadReadsOrFaults := by
  intro x s
  constructor
  · intro hin
    refine ⟨_, exec_ldVxMem_inRange hin, fun k hk => ?_, fun k hk => ?_, ?_⟩
    · rw [State.readV_loadRegs_bytes, if_pos hk]
    · rw [State.readV_loadRegs_bytes, if_neg (Nat.not_le.2 hk)]
    · rw [State.loadRegs_eq]
  · intro hout
    exact ⟨_, exec_ldVxMem_outOfRange hout, faultTaken_raiseFault s .memRange _⟩

/-- Settles O50: the load reads the bytes that the dump stored. -/
theorem dumpThenLoadRestoresRegisters : Obligations.DumpThenLoadRestoresRegisters := by
  intro x s t u hwf hin hdump hmem hI
  rw [exec_ldMemVx_inRange hin] at hdump
  cases hdump
  have hIu : u.I = s.I := hI
  refine ⟨_, exec_ldVxMem_inRange (by rw [hIu]; exact hin), fun k hk => ?_⟩
  rw [State.readV_loadRegs_bytes, if_pos hk, hmem, hIu]
  exact byteAt_putMany_regsUpTo_add s hwf hin hk

/-! ### The fetch after a store (R66, R76) -/

theorem wordOfBytes_toNat (hi lo : Byte) : (wordOfBytes hi lo).toNat = hi.toNat * 256 + lo.toNat := by
  rw [wordOfBytes, BitVec.toNat_append, ← Nat.shiftLeft_add_eq_or_of_lt lo.isLt, Nat.shiftLeft_eq]

theorem State.fetch_of_canFetch {s : State} (h : s.CanFetch) : s.fetch = some s.fetched :=
  s.fetch_eq.trans (if_pos h)

theorem State.fetch_of_not_canFetch {s : State} (h : ¬ s.CanFetch) : s.fetch = none :=
  s.fetch_eq.trans (if_neg h)

/-- Settles O51: the fetch reads the memory that the store left, byte by byte. -/
theorem storesAreSeenByTheNextFetch : Obligations.StoresAreSeenByTheNextFetch := by
  intro x s hwf hpc
  constructor
  · intro hin
    refine ⟨_, _, exec_ldB_inRange x hin, State.fetch_of_canFetch hpc, ?_, rfl⟩
    rw [State.fetched, State.wordAtPc, wordOfBytes_toNat, byteAt_putMany_bcdDigits _ hwf hin,
      byteAt_putMany_bcdDigits _ hwf hin]
  · intro hin
    refine ⟨_, _, exec_ldMemVx_inRange hin, State.fetch_of_canFetch hpc, ?_, rfl⟩
    rw [State.fetched, State.wordAtPc, wordOfBytes, byteAt_putMany_regsUpTo s x hwf hin,
      byteAt_putMany_regsUpTo s x hwf hin]

end Sys2Proof.Machine
end

section
/-! Reset: the table of reset values, the font in memory, and the fault record as one register (R40, R41, R214). -/

namespace Sys2Proof.Machine

/-! ### The font's bytes in address order (R214) -/

theorem fontBytes_eq_flatten (font : Vector (Vector Byte 5) 16) : fontBytes font = font.flatten.toList := by
  obtain ⟨⟨glyphs⟩, _⟩ := font
  simp only [fontBytes, Vector.flatten, Vector.toList, List.flatMap, List.map_toArray, Array.toList_flatten, List.map_map]
  rfl

@[simp] theorem fontBytes_length (font : Vector (Vector Byte 5) 16) : (fontBytes font).length = 80 := by
  rw [fontBytes_eq_flatten, Vector.length_toList]

/-- Byte 5d + r of a font is row r of glyph d. -/
theorem fontBytes_getElem (font : Vector (Vector Byte 5) 16) (d : Fin 16) (r : Fin 5)
    (h : 5 * d.val + r.val < (fontBytes font).length) : (fontBytes font)[5 * d.val + r.val] = (font.get d).get r := by
  have hdiv : (5 * d.val + r.val) / 5 = d.val := by omega
  have hmod : (5 * d.val + r.val) % 5 = r.val := by omega
  simp only [fontBytes_eq_flatten, Vector.getElem_toList, Vector.getElem_flatten, hdiv, hmod, Vector.get_eq_getElem]

theorem glyphOffset_lt (d : Fin 16) (r : Fin 5) : 5 * d.val + r.val < 80 := by omega

/-! ### The reset contents of memory (R41) -/

theorem byteAt_reset (a : Nat) : State.reset.mem.byteAt a = initialByte a := rfl

theorem initialByte_outside {a : Nat} (h : a < 0x050 ∨ 0x0A0 ≤ a) : initialByte a = 0x00#8 :=
  if_neg (by omega)

theorem initialByte_glyph (d : Fin 16) (r : Fin 5) :
    initialByte (0x050 + 5 * d.val + r.val) = (fontDefault.get d).get r := by
  have hdiv : (0x050 + 5 * d.val + r.val - 0x050) / 5 % 16 = d.val := by omega
  have hmod : (0x050 + 5 * d.val + r.val - 0x050) % 5 = r.val := by omega
  rw [initialByte, if_pos (by omega)]
  simp only [hdiv, hmod, Fin.eta]

/-- Settles O6: the register file and the slots are replicated zeros, and memory reads as its reset contents. -/
theorem resetValuesAreTabulated : Obligations.ResetValuesAreTabulated := by
  refine ⟨fun a ha => initialByte_outside (ha.imp_right And.left), initialByte_glyph, rfl, fun j => ?v, rfl,
    fun k => Vector.getElem_replicate k.isLt, rfl, rfl, rfl, fun k => Vector.getElem_replicate k.isLt,
    Framebuffer.pixel_clear, rfl, rfl, rfl, rfl⟩
  case v => exact Vector.getElem_replicate j.isLt

/-! ### Reset with any font (R8) -/

/-- The font fits in memory. -/
theorem fontBase_add_length_le (font : Vector (Vector Byte 5) 16) : fontBase + (fontBytes font).length ≤ memSize := by
  rw [fontBytes_length]
  decide

/-- Placing the default font, which the reset contents already hold, lists nothing. -/
theorem putMany_fontDefault : Memory.putMany [] fontBase (fontBytes fontDefault) = [] := by decide

/-- Settles O7: the font's 80 bytes are put into the canonical empty list from 0x050 on. -/
theorem resetPlacesAnyFont : Obligations.ResetPlacesAnyFont := by
  have hwf : Memory.wf [] = true := rfl
  refine ⟨fun p d r => ?glyph, fun p a ha => ?outside, fun p => ⟨?canonical, rfl⟩, ?standard⟩
  case glyph =>
    have hlt : 5 * d.val + r.val < (fontBytes p.font).length := by
      rw [fontBytes_length]
      exact glyphOffset_lt d r
    have hin := Memory.byteAt_putMany_inside hwf (fontBase_add_length_le p.font) _ hlt
    rw [fontBytes_getElem, ← Nat.add_assoc] at hin
    exact hin
  case outside =>
    rw [← initialByte_outside ha, ← byteAt_reset a]
    exact Memory.byteAt_putMany_outside (by rw [fontBytes_length, fontBase]; omega)
  case canonical => exact Memory.putMany_wf hwf (fontBase_add_length_le p.font)
  case standard => exact congrArg (fun m => { State.reset with mem := m }) putMany_fontDefault

/-- Settles O8: nothing is listed, nothing is counted, and the core waits in IDLE with FAULT clear. -/
theorem resetIsSound : Obligations.ResetIsSound where
  memory := rfl
  cycle := Nat.zero_le _
  faultHalts := fun hvalid => nomatch hvalid
  quitHalts := fun hquit => nomatch hquit
  haltedWhy := fun hphase => nomatch hphase
  faultClear := fun _ => rfl
  faultCode := fun hvalid => nomatch hvalid
  framesAfterBoot := fun hphase => absurd rfl hphase

/-- Settles O58: LD_F's address is exact, and the reset contents there are the glyph's rows. -/
theorem ldFPointsAtItsGlyph : Obligations.LdFPointsAtItsGlyph := by
  intro x d r s hmem hd
  refine ⟨_, exec_ldF x s, ?_⟩
  rw [State.setI_I, State.setI_mem, glyphAddress_toNat, hd, hmem, byteAt_reset, initialByte_glyph]

/-- Settles O57: each field of the concatenation lies above those after it. -/
theorem faultRegisterLayout : Obligations.FaultRegisterLayout := by
  intro f
  unfold FaultRecord.bits
  refine ⟨?valid, ?cause, ?pc, ?word, ?info⟩
  case valid =>
    rw [BitVec.getLsbD_append, if_neg (by decide), BitVec.getLsbD_ofBool]
    exact Bool.true_and f.valid
  all_goals
    simp (disch := decide) only [BitVec.extractLsb'_append_eq_of_add_le, BitVec.extractLsb'_append_eq_left,
      BitVec.extractLsb'_eq_self]

end Sys2Proof.Machine
end

section
/-! Display: the pixels a sprite hits, DRW's collision in VF, and the laws of R243 (R240 to R243). -/

namespace Sys2Proof.Machine

/-! ### The pixels a sprite hits (R240, R242) -/

theorem rowHit_iff (x0 : Nat) (b : Byte) (px : Fin 64) :
    rowHit x0 b px = true ↔ ∃ c, c < 8 ∧ px = screenColumn (x0 + c) ∧ b.getLsbD (7 - c) = true := by
  simp only [rowHit, List.any_eq_true, List.mem_range, Bool.and_eq_true, decide_eq_true_eq, and_comm]

/-- A pixel is hit exactly when it is the place of a set sprite bit. -/
theorem spriteHit_iff_bit (x0 y0 : Nat) (bs : List Byte) (px : Fin 64) (py : Fin 32) :
    spriteHit x0 y0 bs px py = true ↔ ∃ r, ∃ hr : r < bs.length, ∃ c, c < 8 ∧
      px = screenColumn (x0 + c) ∧ py = screenRow (y0 + r) ∧ bs[r].getLsbD (7 - c) = true := by
  rw [spriteHit_iff]
  refine exists_congr fun r => exists_congr fun hr => ?_
  rw [rowHit_iff]
  constructor
  · rintro ⟨hy, c, hc, hx, hbit⟩
    exact ⟨c, hc, hx, hy, hbit⟩
  · rintro ⟨c, hc, hx, hy, hbit⟩
    exact ⟨hy, c, hc, hx, hbit⟩

/-- A sprite of at most 16 rows puts each bit on a pixel of its own, so that pixel is hit exactly when the bit is set. -/
theorem spriteHit_at {x0 y0 r c : Nat} {bs : List Byte} (hlen : bs.length ≤ 16) (hr : r < bs.length) (hc : c < 8) :
    spriteHit x0 y0 bs (screenColumn (x0 + c)) (screenRow (y0 + r)) = bs[r].getLsbD (7 - c) := by
  rw [Bool.eq_iff_iff, spriteHit_iff_bit]
  constructor
  · rintro ⟨r', hr', c', hc', hx, hy, hbit⟩
    obtain rfl := column_injective hc hc' hx
    obtain rfl := row_injective (by omega) (by omega) hy
    exact hbit
  · intro hbit
    exact ⟨r, hr, c, hc, rfl, rfl, hbit⟩

/-- Some set pixel is hit exactly when some set sprite bit lands on a set pixel. -/
theorem exists_spriteHit_iff_bit (x0 y0 : Nat) (bs : List Byte) (fb : Framebuffer) :
    (∃ px py, spriteHit x0 y0 bs px py = true ∧ fb.pixel px py = true) ↔
      ∃ r, ∃ hr : r < bs.length, ∃ c, c < 8 ∧ bs[r].getLsbD (7 - c) = true ∧
        fb.pixel (screenColumn (x0 + c)) (screenRow (y0 + r)) = true := by
  constructor
  · rintro ⟨px, py, hhit, hset⟩
    obtain ⟨r, hr, c, hc, rfl, rfl, hbit⟩ := (spriteHit_iff_bit x0 y0 bs px py).1 hhit
    exact ⟨r, hr, c, hc, hbit, hset⟩
  · rintro ⟨r, hr, c, hc, hbit, hset⟩
    exact ⟨_, _, (spriteHit_iff_bit x0 y0 bs _ _).2 ⟨r, hr, c, hc, rfl, rfl, hbit⟩, hset⟩

/-- A sprite drawn from no collision collides exactly when a pixel it hits was set. -/
theorem drawRows_collision_iff_hit (x0 y0 : Nat) {bs : List Byte} (fb : Framebuffer) (hlen : bs.length ≤ 16) :
    (drawRows x0 y0 bs (fb, false)).2 = true ↔ ∃ px py, spriteHit x0 y0 bs px py = true ∧ fb.pixel px py = true := by
  rw [drawRows_collision x0 bs y0 _ hlen, exists_spriteHit_iff_bit]
  exact or_iff_right Bool.false_ne_true

/-- Two framebuffers with the same pixels are the same. -/
theorem Framebuffer.ext_pixel {f g : Framebuffer} (h : ∀ px py, f.pixel px py = g.pixel px py) : f = g := by
  apply Vector.ext
  intro y hy
  apply BitVec.eq_of_getLsbD_eq
  intro x hx
  exact h ⟨x, hx⟩ ⟨y, hy⟩

/-! ### The collision as VF holds it (R242) -/

theorem collisionFlag_eq_one_iff (collision : Bool) : collisionFlag collision = 1#8 ↔ collision = true := by
  cases collision <;> simp [collisionFlag, flagByte]

theorem collisionFlag_eq_zero_iff (collision : Bool) : collisionFlag collision = 0#8 ↔ collision = false := by
  cases collision <;> simp [collisionFlag, flagByte]

/-! ### Drawing a sprite -/

section Sprite

variable (s : State) (x y : Reg) {bs : List Byte} (hlen : bs.length ≤ 16)
include hlen

theorem State.drawSprite_pixel (px : Fin 64) (py : Fin 32) : (s.drawSprite x y bs).fb.pixel px py =
    (s.fb.pixel px py ^^ spriteHit (s.readV x).toNat (s.readV y).toNat bs px py) :=
  drawRows_pixel _ px py bs _ _ hlen

/-- VF after a draw is 1 exactly when a pixel that the sprite hits was set. -/
theorem State.drawSprite_vf_eq_one_iff : (s.drawSprite x y bs).readV VF = 1#8 ↔
    ∃ px py, spriteHit (s.readV x).toNat (s.readV y).toNat bs px py = true ∧ s.fb.pixel px py = true := by
  rw [State.drawSprite, State.readV_writeV_same, collisionFlag_eq_one_iff, drawRows_collision_iff_hit _ _ _ hlen]

theorem State.drawSprite_vf_eq_zero_iff : (s.drawSprite x y bs).readV VF = 0#8 ↔
    ¬ ∃ px py, spriteHit (s.readV x).toNat (s.readV y).toNat bs px py = true ∧ s.fb.pixel px py = true := by
  rw [State.drawSprite, State.readV_writeV_same, collisionFlag_eq_zero_iff, ← drawRows_collision_iff_hit _ _ _ hlen,
    Bool.not_eq_true]

end Sprite

theorem State.drawSprite_vf_zero_or_one (s : State) (x y : Reg) (bs : List Byte) :
    (s.drawSprite x y bs).readV VF = 0#8 ∨ (s.drawSprite x y bs).readV VF = 1#8 := by
  rw [State.drawSprite, State.readV_writeV_same, collisionFlag_eq_zero_iff, collisionFlag_eq_one_iff]
  exact Bool.eq_false_or_eq_true _ |>.symm

theorem onlyRegisters_drawSprite (s : State) (x y : Reg) (bs : List Byte) :
    OnlyRegisters [VF] { s with fb := (s.drawSprite x y bs).fb } (s.drawSprite x y bs) :=
  onlyRegisters_writeV _ VF _

theorem exec_drw_inRange (x y : Reg) {n : Count} {s : State} (h : n = 0#4 ∨ s.I.toNat + n.toNat ≤ 4096) :
    exec (.drw x y n) s = .next (s.drawSprite x y (s.mem.bytes s.I.toNat n.toNat)) := by
  have hread : n.toNat = 0 ∨ s.I.toNat + n.toNat ≤ memSize := h.imp_left (congrArg BitVec.toNat)
  simp only [exec, execDrw, memReadMany_inRange hread]

theorem exec_drw_outOfRange (x y : Reg) {n : Count} {s : State} (hn : n ≠ 0#4) (h : 4096 < s.I.toNat + n.toNat) :
    exec (.drw x y n) s = .next (s.raiseFault .memRange (lowestOffending s.I.toNat)) := by
  have hread : ¬ (n.toNat = 0 ∨ s.I.toNat + n.toNat ≤ memSize) :=
    not_or.2 ⟨fun h0 => hn (BitVec.eq_of_toNat_eq h0), Nat.not_le.2 h⟩
  simp only [exec, execDrw, memReadMany_outOfRange hread]

/-- A sprite of DRW has at most 15 rows. -/
theorem spriteBytes_length_le (m : Memory) (a : Nat) (n : Count) : (m.bytes a n.toNat).length ≤ 16 := by
  have hn := n.isLt
  rw [Memory.bytes_length]
  omega

/-! ### The obligations -/

/-- Settles O53: a pixel with a sprite bit on it is XORed with that bit, one with none is hit by none, and VF is the
collision. -/
theorem drwXorsWrappedPixelsOrFaults : Obligations.DrwXorsWrappedPixelsOrFaults := by
  intro x y n s
  refine ⟨fun hin => ?draw, fun hn hout => ⟨_, exec_drw_outOfRange x y hn hout, faultTaken_raiseFault s .memRange _⟩⟩
  have hlen := spriteBytes_length_le s.mem s.I.toNat n
  have hcollision : (∃ r c : Nat, r < n.toNat ∧ c < 8 ∧ (s.mem.byteAt (s.I.toNat + r)).getLsbD (7 - c) = true ∧
      s.fb.pixel (screenColumn ((s.readV x).toNat + c)) (screenRow ((s.readV y).toNat + r)) = true) ↔
      ∃ px py, spriteHit (s.readV x).toNat (s.readV y).toNat (s.mem.bytes s.I.toNat n.toNat) px py = true ∧
        s.fb.pixel px py = true := by
    rw [exists_spriteHit_iff_bit]
    simp only [Memory.bytes_length, Memory.bytes_getElem, exists_prop, exists_and_left]
  refine ⟨_, exec_drw_inRange x y hin, fun r c hr hc => ?own, fun px py hoff => ?other, fun hcoll => ?set, fun hcoll => ?clear,
    onlyRegisters_drawSprite s x y _⟩
  case own =>
    rw [State.drawSprite_pixel s x y hlen, spriteHit_at hlen (by rw [Memory.bytes_length]; exact hr) hc, Memory.bytes_getElem]
  case other =>
    have hmiss : spriteHit (s.readV x).toNat (s.readV y).toNat (s.mem.bytes s.I.toNat n.toNat) px py = false := by
      rw [Bool.eq_false_iff, Ne, spriteHit_iff_bit]
      rintro ⟨r, hr, c, hc, hx, hy, -⟩
      exact hoff r c (by rwa [Memory.bytes_length] at hr) hc ⟨hx, hy⟩
    rw [State.drawSprite_pixel s x y hlen, hmiss, Bool.xor_false]
  case set => exact (State.drawSprite_vf_eq_one_iff s x y hlen).2 (hcollision.1 hcoll)
  case clear => exact (State.drawSprite_vf_eq_zero_iff s x y hlen).2 (mt hcollision.2 hcoll)

/-- Settles O54: the second draw hits the same pixels, so it undoes the first, and it collides at the pixels that the
first turned on. -/
theorem drawingTwiceRestoresTheScreen : Obligations.DrawingTwiceRestoresTheScreen := by
  intro x y n s t hin hdraw hx hy
  have hlen := spriteBytes_length_le s.mem s.I.toNat n
  rw [exec_drw_inRange x y hin] at hdraw
  cases hdraw
  have hpixel := State.drawSprite_pixel s x y hlen
  refine ⟨_, exec_drw_inRange x y hin, Framebuffer.ext_pixel fun px py => ?restored, ?collision,
    State.drawSprite_vf_zero_or_one _ x y _⟩
  case restored =>
    refine (State.drawSprite_pixel _ x y hlen px py).trans ?_
    rw [hpixel, hx, hy, Bool.xor_assoc, Bool.xor_self, Bool.xor_false]
  case collision =>
    refine (State.drawSprite_vf_eq_one_iff _ x y hlen).trans (exists_congr fun px => exists_congr fun py => ?_)
    rw [hx, hy, hpixel]
    cases s.fb.pixel px py <;> simp

/-- Settles O55: on a clear screen no pixel that a sprite hits is set. -/
theorem drwAfterClsSetsNoCollision : Obligations.DrwAfterClsSetsNoCollision := by
  intro x y n s t hcls hin
  rw [exec_cls] at hcls
  cases hcls
  refine ⟨_, exec_drw_inRange x y hin, (State.drawSprite_vf_eq_zero_iff _ x y (spriteBytes_length_le _ _ n)).2 ?_⟩
  rintro ⟨px, py, -, hset⟩
  rw [State.setFb_fb, Framebuffer.pixel_clear] at hset
  cases hset

/-- A full row at column 60 lands on the last four columns and the first four. -/
theorem rowHit_full_at_60 : ∀ px : Fin 64, rowHit 60 0xFF#8 px = true ↔ px.val < 4 ∨ 60 ≤ px.val := by decide

/-- Settles O56: on a clear screen the pixels set are the pixels hit. -/
theorem spriteAtColumn60Wraps : Obligations.SpriteAtColumn60Wraps := by
  intro x y s hclear hI hbyte hx
  have hsprite : s.mem.bytes s.I.toNat (1#4 : Count).toNat = [0xFF#8] := congrArg (fun b => [b]) hbyte
  refine ⟨_, exec_drw_inRange x y (.inr hI), fun px py => ?_⟩
  rw [hsprite, State.drawSprite_pixel s x y (by decide), hclear, Bool.false_xor, hx]
  simp only [spriteHit, Bool.or_false, Bool.and_eq_true, decide_eq_true_eq]
  exact and_congr_right fun _ => rowHit_full_at_60 px

end Sys2Proof.Machine
end

section
/-! What an instruction can write, and which faults it can raise (R20 to R37, R60, R263, R264). -/

namespace Sys2Proof.Machine

/-! ### The lists of R21, R23 and R263 -/

/-- The instructions that can raise each cause (R263, R264); the fetch alone raises FETCH_RANGE. -/
def CanRaise (i : Instr) : FaultCause → Prop
  | .fetchRange => False
  | .memRange => (∃ x, i = .ldB x ∨ i = .ldMemVx x ∨ i = .ldVxMem x) ∨ ∃ x y n, i = .drw x y n ∧ n ≠ 0#4
  | .stackOverflow => ∃ nnn, i = .call nnn
  | .stackUnderflow => i = .ret
  | .keyRange => ∃ x, i = .skp x ∨ i = .sknp x

/-- The registers an instruction can write: its destination, V0 to Vx, or VF as the flag (R20, R21). -/
def WritesRegister (i : Instr) (j : Reg) : Prop :=
  (∃ kk, i = .ldImm j kk ∨ i = .addImm j kk ∨ i = .rnd j kk) ∨
  (∃ y, i = .ldReg j y ∨ i = .orReg j y ∨ i = .andReg j y ∨ i = .xorReg j y) ∨
  (∃ y, i = .addReg j y ∨ i = .sub j y ∨ i = .subn j y ∨ i = .shr j y ∨ i = .shl j y) ∨
  i = .ldVxDt j ∨ i = .ldVxK j ∨ (∃ x, i = .ldVxMem x ∧ j.toNat ≤ x.toNat) ∨
  (j = VF ∧ ((∃ x y, i = .addReg x y ∨ i = .sub x y ∨ i = .subn x y ∨ i = .shr x y ∨ i = .shl x y) ∨
    ∃ x y n, i = .drw x y n))

/-- The skips (R125 to R128, R191, R192). -/
def IsSkip (i : Instr) : Prop :=
  (∃ x kk, i = .seImm x kk ∨ i = .sneImm x kk) ∨ (∃ x y, i = .seReg x y ∨ i = .sneReg x y) ∨
    ∃ x, i = .skp x ∨ i = .sknp x

/-- What an instruction without a push or a pop can leave in pc: a jump's target, two bytes further after a skip, two
bytes less while it waits for a key, or the old pc (R23). -/
def MovesPc (i : Instr) (pc pc' : Word) : Prop :=
  pc' ≠ pc → (∃ nnn, i = .jp nnn ∨ i = .jpV0 nnn) ∨ (IsSkip i ∧ pc' = pc + 2#16) ∨ (∃ x, i = .ldVxK x) ∧ pc' = pc - 2#16

/-- What an instruction can do to the state after fetch: raise one of its faults, or write the state the spec names for it
and no other (R20 to R34, R60, R263). -/
inductive ExecEffect (i : Instr) (s : State) : State → Prop where
  | raises {c : FaultCause} (hi : CanRaise i c) (info : Nat) : ExecEffect i s (s.raiseFault c info)
  | registers (v : Vector Byte 16) (draws : Nat)
      (hv : ∀ j, State.readV { s with v := v, draws := draws } j ≠ s.readV j → WritesRegister i j)
      (hdraws : draws ≠ s.draws → ∃ x kk, i = .rnd x kk) : ExecEffect i s { s with v := v, draws := draws }
  | screen (fb : Framebuffer) (v : Vector Byte 16) (hi : i = .cls ∨ ∃ x y n, i = .drw x y n)
      (hv : ∀ j, State.readV { s with fb := fb, v := v } j ≠ s.readV j → WritesRegister i j) :
      ExecEffect i s { s with fb := fb, v := v }
  | pc (pc : Word) (hpc : MovesPc i s.pc pc) : ExecEffect i s { s with pc := pc }
  | stack (stack : Vector Word 16) (sp : Fin 17) (pc : Word) (hi : (∃ nnn, i = .call nnn) ∨ i = .ret)
      (hstack : stack ≠ s.stack → ∃ nnn, i = .call nnn) : ExecEffect i s { s with stack := stack, sp := sp, pc := pc }
  | index (I : Word) (hi : (∃ nnn, i = .ldI nnn) ∨ ∃ x, i = .addI x ∨ i = .ldF x) : ExecEffect i s { s with I := I }
  | delayTimer (b : Byte) (hi : ∃ x, i = .ldDtVx x) : ExecEffect i s { s with DT := b }
  | soundTimer (b : Byte) (hi : ∃ x, i = .ldStVx x) : ExecEffect i s { s with ST := b }
  | memory (bs : List Byte) (hi : ∃ x, i = .ldB x ∨ i = .ldMemVx x) (hin : s.I.toNat + bs.length ≤ memSize) :
      ExecEffect i s { s with mem := s.mem.putMany s.I.toNat bs }

/-! ### The effect of each shared operation -/

/-- The register a write changed is the one it wrote. -/
theorem State.eq_of_readV_writeV_ne {s : State} {x j : Reg} {b : Byte} (h : (s.writeV x b).readV j ≠ s.readV j) : j = x :=
  not_imp_comm.1 (State.readV_writeV_other s b) h

variable {i : Instr} {s : State}

theorem execEffect_writeV {x : Reg} (b : Byte) (hi : WritesRegister i x) : ExecEffect i s (s.writeV x b) :=
  .registers _ _ (fun _ hj => State.eq_of_readV_writeV_ne hj ▸ hi) (fun h => absurd rfl h)

theorem eq_or_eq_of_onlyRegisters {x y j : Reg} {s t : State} (h : OnlyRegisters [x, y] s t) (hj : t.readV j ≠ s.readV j) :
    j = x ∨ j = y := by
  by_contra hne
  exact hj (h.1 j (by simpa using hne))

theorem execEffect_writeResultThenFlag {x : Reg} (result flag : Byte) (hx : WritesRegister i x)
    (hVF : WritesRegister i VF) : ExecEffect i s (s.writeResultThenFlag x result flag) := by
  refine .registers _ _ (fun j hj => ?_) (fun h => absurd rfl h)
  obtain rfl | rfl := eq_or_eq_of_onlyRegisters (onlyRegisters_writeResultThenFlag s x result flag) hj
  exacts [hx, hVF]

theorem execEffect_writeFlagThenResult {x : Reg} (flag result : Byte) (hx : WritesRegister i x)
    (hVF : WritesRegister i VF) : ExecEffect i s (s.writeFlagThenResult x flag result) := by
  refine .registers _ _ (fun j hj => ?_) (fun h => absurd rfl h)
  obtain rfl | rfl := eq_or_eq_of_onlyRegisters (onlyRegisters_writeFlagThenResult s x flag result) hj
  exacts [hx, hVF]

theorem execEffect_skipIf (c : Bool) (hi : IsSkip i) : ExecEffect i s (s.skipIf c) := by
  rw [State.skipIf_eq]
  refine .pc _ fun hpc => .inr (.inl ⟨hi, ?_⟩)
  cases c with
  | true => rfl
  | false => exact absurd rfl hpc

theorem execEffect_skipOnKey (x : Reg) (pressed : Bool) (hi : ∃ x, i = .skp x ∨ i = .sknp x) :
    ExecEffect i s (s.skipOnKey x pressed) := by
  unfold State.skipOnKey
  split
  · exact execEffect_skipIf _ (.inr (.inr hi))
  · exact .raises (c := .keyRange) hi _

theorem execEffect_storeAtI {bs : List Byte} (hbs : bs ≠ []) (hi : ∃ x, i = .ldB x ∨ i = .ldMemVx x) :
    ExecEffect i s (s.storeAtI bs) := by
  rw [State.storeAtI_eq s bs hbs]
  split
  · next hin => exact .memory bs hi hin
  · obtain ⟨x, hx⟩ := hi
    exact .raises (c := .memRange) (.inl ⟨x, hx.imp_right .inl⟩) _

/-! ### The effect of every instruction -/

theorem execEffect_call (nnn : Addr12) {t : State} (h : exec (.call nnn) s = .next t) : ExecEffect (.call nnn) s t := by
  obtain hlt | hfull : s.sp.val < 16 ∨ s.sp.val = 16 := by omega
  · rw [exec_call_of_lt nnn hlt] at h
    cases h
    exact .stack _ _ _ (.inl ⟨nnn, rfl⟩) fun _ => ⟨nnn, rfl⟩
  · rw [exec_call_of_full nnn hfull] at h
    cases h
    exact .raises (c := .stackOverflow) ⟨nnn, rfl⟩ _

theorem sp_eq_zero_or_succ (s : State) : s.sp.val = 0 ∨ ∃ k : Fin 16, s.sp.val = k.val + 1 := by
  cases hsp : s.sp.val with
  | zero => exact .inl rfl
  | succ k => exact .inr ⟨⟨k, by omega⟩, rfl⟩

theorem execEffect_ret {t : State} (h : exec .ret s = .next t) : ExecEffect .ret s t := by
  obtain hempty | ⟨k, hk⟩ := sp_eq_zero_or_succ s
  · rw [exec_ret_of_empty hempty] at h
    cases h
    exact .raises (c := .stackUnderflow) rfl _
  · rw [exec_ret_of_eq_succ hk] at h
    cases h
    exact .stack s.stack _ _ (.inr rfl) fun hne => absurd rfl hne

theorem execEffect_ldVxK (x : Reg) {t : State} (h : exec (.ldVxK x) s = .next t) : ExecEffect (.ldVxK x) s t := by
  cases hkey : firstPressed s.key with
  | some k =>
    rw [exec_ldVxK_of_some x hkey] at h
    cases h
    exact execEffect_writeV _ (by simp [WritesRegister])
  | none =>
    rw [exec_ldVxK_of_none x hkey] at h
    cases h
    exact .pc _ fun _ => .inr (.inr ⟨⟨x, rfl⟩, rfl⟩)

theorem execEffect_ldVxMem (x : Reg) {t : State} (h : exec (.ldVxMem x) s = .next t) : ExecEffect (.ldVxMem x) s t := by
  obtain hin | hout := Nat.lt_or_ge (s.I.toNat + x.toNat) 4096
  · rw [exec_ldVxMem_inRange hin, State.loadRegs_eq] at h
    cases h
    refine .registers _ _ (fun j hj => ?_) (fun hne => absurd rfl hne)
    have hle : j.toNat ≤ x.toNat := by
      by_contra hgt
      exact hj ((State.readV_loadRegs_bytes s x j).trans (if_neg hgt))
    exact .inr (.inr (.inr (.inr (.inr (.inl ⟨x, rfl, hle⟩)))))
  · rw [exec_ldVxMem_outOfRange hout] at h
    cases h
    exact .raises (c := .memRange) (.inl ⟨x, .inr (.inr rfl)⟩) _

theorem execEffect_drw (x y : Reg) (n : Count) {t : State} (h : exec (.drw x y n) s = .next t) :
    ExecEffect (.drw x y n) s t := by
  by_cases hin : n = 0#4 ∨ s.I.toNat + n.toNat ≤ 4096
  · rw [exec_drw_inRange x y hin] at h
    cases h
    refine .screen _ _ (.inr ⟨x, y, n, rfl⟩) fun j hj => ?_
    obtain rfl : j = VF := State.eq_of_readV_writeV_ne hj
    simp [WritesRegister]
  · obtain ⟨hn, hout⟩ := not_or.1 hin
    rw [exec_drw_outOfRange x y hn (Nat.not_le.1 hout)] at h
    cases h
    exact .raises (c := .memRange) (.inr ⟨x, y, n, rfl, hn⟩) _

/-- Every instruction has one of the effects. -/
theorem exec_effect {t : State} (h : exec i s = .next t) : ExecEffect i s t := by
  cases i
  case call nnn => exact execEffect_call nnn h
  case ret => exact execEffect_ret h
  case ldVxK x => exact execEffect_ldVxK x h
  case ldVxMem x => exact execEffect_ldVxMem x h
  case drw x y n => exact execEffect_drw x y n h
  case skp x | sknp x => cases h; exact execEffect_skipOnKey x _ (by simp)
  case ldB x => cases h; exact execEffect_storeAtI (bcdDigits_ne_nil _) ⟨x, .inl rfl⟩
  case ldMemVx x => cases h; exact execEffect_storeAtI (regsUpTo_ne_nil s x) ⟨x, .inr rfl⟩
  case seImm | sneImm | seReg | sneReg => cases h; exact execEffect_skipIf _ (by simp [IsSkip])
  case ldImm | addImm | ldReg | orReg | andReg | xorReg | ldVxDt =>
    cases h; exact execEffect_writeV _ (by simp [WritesRegister])
  case addReg | sub | subn =>
    cases h; exact execEffect_writeResultThenFlag _ _ (by simp [WritesRegister]) (by simp [WritesRegister])
  case shr | shl =>
    cases h; exact execEffect_writeFlagThenResult _ _ (by simp [WritesRegister]) (by simp [WritesRegister])
  case rnd x kk =>
    cases h
    exact .registers _ _ (fun j hj => State.eq_of_readV_writeV_ne (s := { s with draws := s.draws + 1 }) hj ▸
      .inl ⟨kk, .inr (.inr rfl)⟩) fun _ => ⟨x, kk, rfl⟩
  case jp nnn => cases h; exact .pc _ fun _ => .inl ⟨nnn, .inl rfl⟩
  case jpV0 nnn => cases h; exact .pc _ fun _ => .inl ⟨nnn, .inr rfl⟩
  case cls => cases h; exact .screen _ s.v (.inl rfl) fun j hj => absurd rfl hj
  case ldI nnn => cases h; exact .index _ (.inl ⟨nnn, rfl⟩)
  case addI x => cases h; exact .index _ (.inr ⟨x, .inl rfl⟩)
  case ldF x => cases h; exact .index _ (.inr ⟨x, .inr rfl⟩)
  case ldDtVx x => cases h; exact .delayTimer _ ⟨x, rfl⟩
  case ldStVx x => cases h; exact .soundTimer _ ⟨x, rfl⟩
  case sys => cases h; exact .registers s.v s.draws (fun j hj => absurd rfl hj) fun hne => absurd rfl hne

/-! ### The obligations -/

/-- Settles O16: only the first effect writes FAULT, with the code of a cause that the instruction can raise. -/
theorem onlyListedInstructionsFault : Obligations.OnlyListedInstructionsFault := by
  intro i s t h hfault
  cases exec_effect h with
  | @raises c hi info =>
    cases c with
    | fetchRange => exact hi.elim
    | memRange => exact .inr (.inr (.inr ⟨hi, rfl⟩))
    | stackOverflow => exact .inl ⟨hi, rfl⟩
    | stackUnderflow => exact .inr (.inl ⟨hi, rfl⟩)
    | keyRange => exact .inr (.inr (.inl ⟨hi, rfl⟩))
  | registers | screen | pc | stack | index | delayTimer | soundTimer | memory => exact absurd rfl hfault

/-- An instruction that raises a fault is one of R263's list. -/
theorem CanRaise.listed {c : FaultCause} (hi : CanRaise i c) :
    (∃ nnn, i = .call nnn) ∨ i = .ret ∨ (∃ x, i = .skp x ∨ i = .sknp x) ∨
      (∃ x, i = .ldB x ∨ i = .ldMemVx x ∨ i = .ldVxMem x) ∨ ∃ x y n, i = .drw x y n ∧ n ≠ 0#4 := by
  cases c with
  | fetchRange => exact hi.elim
  | memRange => exact .inr (.inr (.inr hi))
  | stackOverflow => exact .inl hi
  | stackUnderflow => exact .inr (.inl hi)
  | keyRange => exact .inr (.inr (.inl hi))

/-- Settles O21: each effect changes the state of its own clauses and leaves the rest as it was. -/
theorem instructionsWriteOnlyTheirState : Obligations.InstructionsWriteOnlyTheirState := by
  intro i s t h faulted
  cases exec_effect h with
  | @raises c hi info =>
    have hfaulted : faulted := ⟨c, info, faultTaken_raiseFault s c info⟩
    refine ⟨fun j hj => absurd rfl hj, fun _ => .inr (.inr (.inr (.inr hfaulted))), ?_⟩
    simp [State.raiseFault, hfaulted, hi.listed]
  | registers v draws hv hdraws =>
    refine ⟨hv, fun hne => absurd rfl hne, ?_⟩
    simpa using hdraws
  | screen fb v hi hv =>
    refine ⟨hv, fun hne => absurd rfl hne, ?_⟩
    simpa using fun _ => hi
  | pc pc hpc =>
    refine ⟨fun j hj => absurd rfl hj, fun hne => ?_, by simp⟩
    obtain ⟨nnn, hjump⟩ | hskip | hwait := hpc hne
    · exact .inl ⟨nnn, hjump.imp_right .inr⟩
    · exact .inr (.inr (.inl hskip))
    · exact .inr (.inr (.inr (.inl hwait)))
  | stack stack sp pc hi hstack =>
    refine ⟨fun j hj => absurd rfl hj, fun _ => ?_, fun hne => absurd rfl hne, hstack, fun _ => hi, by simp⟩
    obtain ⟨nnn, hcall⟩ | hret := hi
    · exact .inl ⟨nnn, .inr (.inl hcall)⟩
    · exact .inr (.inl hret)
  | index I hi =>
    refine ⟨fun j hj => absurd rfl hj, fun hne => absurd rfl hne, ?_⟩
    simpa using fun _ => hi
  | delayTimer b hi | soundTimer b hi =>
    refine ⟨fun j hj => absurd rfl hj, fun hne => absurd rfl hne, ?_⟩
    simpa using fun _ => hi
  | memory bs hi hin =>
    refine ⟨fun j hj => absurd rfl hj, fun hne => absurd rfl hne, ?_⟩
    simpa using fun _ => hi

end Sys2Proof.Machine
end

section
/-! The instruction cycle: fetch, decode, execute, count, and what a fault in it leaves (R66, R98, R261, R320, R321). -/

namespace Sys2Proof.Machine

/-! ### Every step answers a state -/

theorem exec_answers_next (i : Instr) (s : State) : ∃ t, exec i s = .next t := by
  cases i
  case call => simp only [exec, execCall]; split <;> exact ⟨_, rfl⟩
  case ret => simp only [exec, execRet]; split <;> exact ⟨_, rfl⟩
  case drw => simp only [exec, execDrw]; split <;> exact ⟨_, rfl⟩
  case ldVxK => simp only [exec, execLdVxK]; split <;> exact ⟨_, rfl⟩
  case ldVxMem => simp only [exec, execLdVxMem]; split <;> exact ⟨_, rfl⟩
  all_goals exact ⟨_, rfl⟩

theorem execDecoded_answers_next (d : Decoded) (s : State) : ∃ t, execDecoded d s = .next t := by
  cases d with
  | known i => exact exec_answers_next i s
  | unknown w => exact ⟨_, rfl⟩

/-- A cycle that cannot fetch raises the fetch fault (R66). -/
theorem instructionCycle_of_not_canFetch (p : Params) {s : State} (h : ¬ s.CanFetch) :
    instructionCycle p s = .next s.raiseFetchFault := by
  simp only [instructionCycle, State.fetch_of_not_canFetch h]

/-- A cycle that can fetch ends with what the handler of the decoded word answers (R321). -/
theorem instructionCycle_of_canFetch (p : Params) {s r : State} (h : s.CanFetch)
    (hexec : execDecoded (decode p.sysIsUnknown s.wordAtPc) s.fetched = .next r) :
    instructionCycle p s = .next (endCycle s r) := by
  have hIR : s.fetched.IR = s.wordAtPc := rfl
  simp only [instructionCycle, State.fetch_of_canFetch h, hIR, hexec, mapNext]

theorem instructionCycle_answers_next (p : Params) (s : State) : ∃ t, instructionCycle p s = .next t := by
  by_cases hfetch : s.CanFetch
  · obtain ⟨r, hr⟩ := execDecoded_answers_next (decode p.sysIsUnknown s.wordAtPc) s.fetched
    exact ⟨_, instructionCycle_of_canFetch p hfetch hr⟩
  · exact ⟨_, instructionCycle_of_not_canFetch p hfetch⟩

section Phases

variable (p : Params) {s : State}

theorem stepWith_of_idle (h : s.SEQ.phase = .idle) : stepWith p s = .next s.idlePhase := by
  simp only [stepWith, h]

theorem stepWith_of_input (h : s.SEQ.phase = .input) : stepWith p s = .next s.inputPhase := by
  simp only [stepWith, h]

theorem stepWith_of_cycle (h : s.SEQ.phase = .exec) (hcycle : s.SEQ.cycle < p.cyclesPerFrame) :
    stepWith p s = instructionCycle p s := by
  simp only [stepWith, h, execPhase, if_pos hcycle]

theorem stepWith_of_completeBatch (h : s.SEQ.phase = .exec) (hcycle : p.cyclesPerFrame ≤ s.SEQ.cycle) :
    stepWith p s = .next (s.setPhase .audio) := by
  simp only [stepWith, h, execPhase, if_neg (Nat.not_lt.2 hcycle)]

theorem stepWith_of_audio (h : s.SEQ.phase = .audio) : stepWith p s = .next s.audioPhase := by
  simp only [stepWith, h]

theorem stepWith_of_timers (h : s.SEQ.phase = .timers) : stepWith p s = .next s.timersPhase := by
  simp only [stepWith, h]

theorem stepWith_of_render (h : s.SEQ.phase = .render) : stepWith p s = .next s.renderPhase := by
  simp only [stepWith, h]

theorem stepWith_of_halted (h : s.SEQ.phase = .halted) : stepWith p s = .next s := by
  simp only [stepWith, h]

end Phases

/-- Settles O17: each phase answers a state, and an instruction cycle does because its handler does. -/
theorem everyStepAnswersNext : Obligations.EveryStepAnswersNext := by
  intro p s
  cases hphase : s.SEQ.phase with
  | idle => exact ⟨_, stepWith_of_idle p hphase⟩
  | input => exact ⟨_, stepWith_of_input p hphase⟩
  | exec =>
    obtain hcycle | hcomplete := Nat.lt_or_ge s.SEQ.cycle p.cyclesPerFrame
    · rw [stepWith_of_cycle p hphase hcycle]
      exact instructionCycle_answers_next p s
    · exact ⟨_, stepWith_of_completeBatch p hphase hcomplete⟩
  | audio => exact ⟨_, stepWith_of_audio p hphase⟩
  | timers => exact ⟨_, stepWith_of_timers p hphase⟩
  | render => exact ⟨_, stepWith_of_render p hphase⟩
  | halted => exact ⟨_, stepWith_of_halted p hphase⟩

/-! ### One instruction cycle -/

theorem endCycle_of_fault {before after : State} (h : after.FAULT.valid = true) :
    endCycle before after = { after with IR := before.IR } :=
  if_pos h

theorem endCycle_of_safe {before after : State} (h : after.Safe) :
    endCycle before after = { after with SEQ := { after.SEQ with cycle := after.SEQ.cycle + 1 } } :=
  if_neg (by rw [h]; exact Bool.false_ne_true)

/-- The state after a cycle of UNKNOWN that raises no fault (R98). -/
theorem endCycle_unknown {s : State} (hsafe : s.Safe) : endCycle s (s.fetched.emit (.diag s.wordAtPc s.pc)) = { s with
    IR := s.wordAtPc
    pc := s.pc + 2#16
    SEQ := { s.SEQ with cycle := s.SEQ.cycle + 1 }
    out := s.out ++ [.diag s.wordAtPc s.pc] } :=
  endCycle_of_safe hsafe

/-- UNKNOWN's handler on the state after fetch: the diagnostic holds the word and the address it was fetched from. -/
theorem execDecoded_unknown_fetched (w : Word) (s : State) :
    execDecoded (.unknown w) s.fetched = .next (s.fetched.emit (.diag s.wordAtPc s.pc)) := by
  have hpc : s.fetched.pc - 2#16 = s.pc := BitVec.add_sub_cancel s.pc 2#16
  simp only [execDecoded, execUnknown, hpc]
  rfl

/-- What an instruction cycle does, by the word at pc: a fetch fault, a diagnostic, or an instruction's handler. -/
theorem instructionCycle_inv (p : Params) {s t : State} (h : instructionCycle p s = .next t) :
    (¬ s.CanFetch ∧ t = s.raiseFetchFault) ∨
    (s.CanFetch ∧ t = endCycle s (s.fetched.emit (.diag s.wordAtPc s.pc))) ∨
    ∃ i r, s.CanFetch ∧ decode p.sysIsUnknown s.wordAtPc = .known i ∧ exec i s.fetched = .next r ∧ t = endCycle s r := by
  by_cases hfetch : s.CanFetch
  · right
    cases hdecode : decode p.sysIsUnknown s.wordAtPc with
    | known i =>
      obtain ⟨r, hr⟩ := exec_answers_next i s.fetched
      rw [instructionCycle_of_canFetch p hfetch (by rw [hdecode]; exact hr)] at h
      cases h
      exact .inr ⟨i, r, hfetch, rfl, hr, rfl⟩
    | unknown w =>
      rw [instructionCycle_of_canFetch p hfetch (by rw [hdecode]; exact execDecoded_unknown_fetched w s)] at h
      cases h
      exact .inl ⟨hfetch, rfl⟩
  · rw [instructionCycle_of_not_canFetch p hfetch] at h
    cases h
    exact .inl ⟨hfetch, rfl⟩

/-- Settles O12: the cycle's end is the branch on FAULT that the statement writes out. -/
theorem stepRunsDecodedInstruction : Obligations.StepRunsDecodedInstruction := by
  intro p s t i hcycle hfetch hdecode hexec
  obtain ⟨hphase, hcount, -⟩ := hcycle
  rw [stepWith_of_cycle p hphase hcount]
  exact instructionCycle_of_canFetch p hfetch (by rw [hdecode]; exact hexec)

/-- Settles O13: UNKNOWN's handler raises no fault, so the cycle is counted. -/
theorem unknownWordSendsOneDiagnostic : Obligations.UnknownWordSendsOneDiagnostic := by
  intro p s hcycle hfetch hdecode
  obtain ⟨hphase, hcount, hsafe⟩ := hcycle
  rw [stepWith_of_cycle p hphase hcount, ← endCycle_unknown hsafe]
  exact instructionCycle_of_canFetch p hfetch (by rw [hdecode]; exact execDecoded_unknown_fetched _ s)

/-- The fetch fault in full: nothing was fetched, so pc stands and is the info (R66). -/
theorem State.raiseFetchFault_eq (s : State) : s.raiseFetchFault =
    s.haltWith { valid := true, cause := 1#4, pc := s.pc, word := 0#16, info := s.pc } := by
  simp only [State.raiseFetchFault, faultRecord, FaultCause.code, BitVec.ofNat_toNat, BitVec.setWidth_eq]

/-- Settles O14: the cycle ends in the fetch. -/
theorem fetchPastMemoryFaults : Obligations.FetchPastMemoryFaults := by
  intro s hcycle hfetch
  obtain ⟨hphase, hcount, -⟩ := hcycle
  rw [step, stepWith_of_cycle _ hphase hcount, instructionCycle_of_not_canFetch _ hfetch, State.raiseFetchFault_eq]
  rfl

/-- A fault raised by the instruction in execution leaves, at the cycle's end, the state before the cycle with the record
written, the core halted and the record sent (R261). -/
theorem endCycle_raiseFault (s : State) (c : FaultCause) (info : Nat) :
    endCycle s (s.fetched.raiseFault c info) = s.haltWith (faultRecord c s.pc s.wordAtPc info) := by
  have hpc : s.fetched.pc - 2#16 = s.pc := BitVec.add_sub_cancel s.pc 2#16
  rw [endCycle_of_fault rfl, State.raiseFault_eq, hpc]
  rfl

/-- What an instruction cycle that began without a fault does: it halts the core with a record of the cycle's address and
word, or it is counted and FAULT stands. -/
theorem instructionCycle_faults_or_counts (p : Params) {s t : State} (hsafe : s.Safe) (h : instructionCycle p s = .next t) :
    (∃ c info, t = s.haltWith (faultRecord c s.pc (if s.CanFetch then s.wordAtPc else 0#16) info)) ∨
    (t.FAULT = s.FAULT ∧ t.SEQ = { s.SEQ with cycle := s.SEQ.cycle + 1 } ∧
      (t.out = s.out ∨ ∃ w pc, t.out = s.out ++ [.diag w pc])) := by
  obtain ⟨hfetch, rfl⟩ | ⟨-, rfl⟩ | ⟨i, r, hfetch, -, hexec, rfl⟩ := instructionCycle_inv p h
  · exact .inl ⟨.fetchRange, s.pc.toNat, by rw [if_neg hfetch]; rfl⟩
  · rw [endCycle_unknown hsafe]
    exact .inr ⟨rfl, rfl, .inr ⟨_, _, rfl⟩⟩
  · obtain ⟨hfault, hseq, hout⟩ | ⟨c, info, rfl⟩ := exec_keepsOrRaises i _ _ hexec
    · have hsafe' : r.Safe := (congrArg FaultRecord.valid hfault).trans hsafe
      rw [endCycle_of_safe hsafe']
      exact .inr ⟨hfault, by rw [hseq]; rfl, .inl hout⟩
    · exact .inl ⟨c, info, by rw [if_pos hfetch]; exact endCycle_raiseFault s c info⟩

/-- Settles O15: a cycle with a valid FAULT at its end is not one that was counted, so the core was halted. -/
theorem faultsArePrecise : Obligations.FaultsArePrecise := by
  intro s t hcycle hstep hvalid
  obtain ⟨hphase, hcount, hsafe⟩ := hcycle
  rw [step, stepWith_of_cycle _ hphase hcount] at hstep
  obtain ⟨c, info, rfl⟩ | ⟨hfault, -, -⟩ := instructionCycle_faults_or_counts _ hsafe hstep
  · exact ⟨rfl, ⟨c, rfl⟩, rfl, fun hfetch => if_pos hfetch, fun hfetch => if_neg hfetch⟩
  · rw [hfault, hsafe] at hvalid
    cases hvalid

/-! ### A word placed for the next fetch (log entry 1) -/

theorem tableWord_toNat (w : Word) : tableWord 16 w.toNat = w := by
  rw [tableWord, Nat.mod_eq_of_lt w.isLt, BitVec.ofNat_toNat, BitVec.setWidth_eq]

/-- Two bytes can always be fetched where the word is placed. -/
theorem State.placeWord_canFetch (s : State) (w : Word) : (s.placeWord w).CanFetch := by
  have hpc : (s.placeWord w).pc = if s.pc.toNat + 1 < memSize then s.pc else 0x0200#16 := rfl
  rw [State.CanFetch, hpc]
  split
  · assumption
  · decide

/-- The placed word's two bytes are what memory holds at the new pc. -/
theorem State.placeWord_wordAtPc (s : State) (w : Word) (hwf : s.mem.wf = true) : (s.placeWord w).wordAtPc = w := by
  have hin := Memory.byteAt_putMany_inside (bs := wordBytes w) hwf (s.placeWord_canFetch w)
  have hhigh : (s.placeWord w).mem.byteAt (s.placeWord w).pc.toNat = highByte w := hin 0 Nat.zero_lt_two
  have hlow : (s.placeWord w).mem.byteAt ((s.placeWord w).pc.toNat + 1) = lowByte w := hin 1 Nat.one_lt_two
  rw [State.wordAtPc, hhigh, hlow, wordOfBytes_highByte_lowByte]

theorem State.placeWord_atCycle (s : State) (w : Word) : (s.placeWord w).AtCycle := by
  refine ⟨rfl, ?_, rfl⟩
  simp only [State.placeWord]
  split
  · assumption
  · decide

/-- Settles O11: the two bytes are put where the next cycle fetches, and the sequencer is set to that cycle. -/
theorem placedWordIsFetchedNext : Obligations.PlacedWordIsFetchedNext := by
  intro s w hwf
  rw [State.withFetchWord, tableWord_toNat]
  exact ⟨s.placeWord_atCycle w, s.placeWord_canFetch w, s.placeWord_wordAtPc w hwf, fun hfetch => if_pos hfetch,
    fun a ha => Memory.byteAt_putMany_outside ha, rfl⟩

end Sys2Proof.Machine
end

section
/-! IDLE and INPUT: the host's inputs, the boot and the events (R271, R290, R310 to R312). -/

namespace Sys2Proof.Machine

/-! ### IDLE takes one item of the inbox (R42, log entry 2) -/

section Idle

variable {s : State} {rest : List HostInput}

theorem idlePhase_of_nil (h : s.inbox = []) : s.idlePhase = s := by
  simp only [State.idlePhase, h]

theorem idlePhase_of_event {e : HostEvent} (h : s.inbox = .event e :: rest) :
    s.idlePhase = { s with inbox := rest, keyEvents := s.keyEvents ++ [e] } := by
  simp only [State.idlePhase, h, State.hostInput]

theorem idlePhase_of_frameStart (h : s.inbox = .frameStart :: rest) (hboot : s.boot ≠ .failed) :
    s.idlePhase = { s with inbox := rest, boot := .ready, SEQ := { s.SEQ with phase := .input } } := by
  simp only [State.idlePhase, h, State.hostInput, State.startFrame]
  cases hb : s.boot with
  | awaitRom => rfl
  | ready => simp only [State.setPhase]
  | failed => exact absurd hb hboot

theorem idlePhase_of_frameStart_failed (h : s.inbox = .frameStart :: rest) (hboot : s.boot = .failed) :
    s.idlePhase = { s with inbox := rest } := by
  simp only [State.idlePhase, h, State.hostInput, State.startFrame, hboot]

theorem idlePhase_of_rom_late {rom : Option (List Byte)} (h : s.inbox = .rom rom :: rest) (hboot : s.boot ≠ .awaitRom) :
    s.idlePhase = { s with inbox := rest } := by
  simp only [State.idlePhase, h, State.hostInput, State.deliverRom]
  cases hb : s.boot with
  | awaitRom => exact absurd hb hboot
  | ready | failed => rfl

theorem idlePhase_of_rom {bytes : List Byte} (h : s.inbox = .rom (some bytes) :: rest) (hboot : s.boot = .awaitRom)
    (hlen : bytes.length ≤ 3584) :
    s.idlePhase = { s with inbox := rest, mem := s.mem.putMany 0x200 bytes, boot := .ready } := by
  have hfits : bytes.length ≤ maxRom := hlen
  simp only [State.idlePhase, h, State.hostInput, State.deliverRom, hboot, State.loadRom, if_pos hfits]
  rfl

/-- Is the ROM unreadable or too long (R312, D36)? -/
def RomFails (rom : Option (List Byte)) : Prop := rom = none ∨ ∃ bytes, rom = some bytes ∧ 3584 < bytes.length

theorem idlePhase_of_rom_fails {rom : Option (List Byte)} (h : s.inbox = .rom rom :: rest) (hboot : s.boot = .awaitRom)
    (hfails : RomFails rom) :
    s.idlePhase = { s with inbox := rest, boot := .failed, out := s.out ++ [.loadError] } := by
  simp only [State.idlePhase, h, State.hostInput, State.deliverRom, hboot, State.loadRom]
  obtain rfl | ⟨bytes, rfl, hlong⟩ := hfails
  · rfl
  · have hlong' : ¬ bytes.length ≤ maxRom := Nat.not_le.2 hlong
    simp only [if_neg hlong']
    rfl

variable (s)

/-- Everything an IDLE step can do. -/
theorem idlePhase_cases :
    s.idlePhase = s ∨
    (∃ inbox keyEvents, s.idlePhase = { s with inbox := inbox, keyEvents := keyEvents }) ∨
    (s.boot ≠ .failed ∧
      ∃ inbox, s.idlePhase = { s with inbox := inbox, boot := .ready, SEQ := { s.SEQ with phase := .input } }) ∨
    (s.boot = .awaitRom ∧ ∃ bytes rest, s.inbox = .rom (some bytes) :: rest ∧ bytes.length ≤ 3584 ∧
      s.idlePhase = { s with inbox := rest, mem := s.mem.putMany 0x200 bytes, boot := .ready }) ∨
    (s.boot = .awaitRom ∧ ∃ inbox, s.idlePhase = { s with inbox := inbox, boot := .failed, out := s.out ++ [.loadError] }) := by
  cases hinbox : s.inbox with
  | nil => exact .inl (idlePhase_of_nil hinbox)
  | cons item rest =>
    right
    cases item with
    | event e => exact .inl ⟨rest, _, idlePhase_of_event hinbox⟩
    | frameStart =>
      by_cases hboot : s.boot = .failed
      · exact .inl ⟨rest, s.keyEvents, idlePhase_of_frameStart_failed hinbox hboot⟩
      · exact .inr (.inl ⟨hboot, rest, idlePhase_of_frameStart hinbox hboot⟩)
    | rom rom =>
      by_cases hboot : s.boot = .awaitRom
      · right; right
        cases rom with
        | none => exact .inr ⟨hboot, rest, idlePhase_of_rom_fails hinbox hboot (.inl rfl)⟩
        | some bytes =>
          obtain hlong | hlen := Nat.lt_or_ge 3584 bytes.length
          · exact .inr ⟨hboot, rest, idlePhase_of_rom_fails hinbox hboot (.inr ⟨bytes, rfl, hlong⟩)⟩
          · exact .inl ⟨hboot, bytes, rest, rfl, hlen, idlePhase_of_rom hinbox hboot hlen⟩
      · exact .inl ⟨rest, s.keyEvents, idlePhase_of_rom_late hinbox hboot⟩

end Idle

/-- Settles O9: the ROM's bytes are put from 0x200 on, where 3584 bytes fit, and a ROM that fails puts none. -/
theorem romLoadCopiesOrFails : Obligations.RomLoadCopiesOrFails := by
  intro s rom rest hphase hboot hinbox hwf
  constructor
  · rintro bytes rfl hlen
    refine ⟨_, (stepWith_of_idle _ hphase).trans (by rw [idlePhase_of_rom hinbox hboot hlen]), fun k hk => ?_,
      onlyMemory_putMany { s with inbox := rest, boot := .ready } 0x200 bytes⟩
    exact Memory.byteAt_putMany_inside hwf (by simp only [memSize]; omega) k hk
  · intro hfails
    exact (stepWith_of_idle _ hphase).trans (by rw [idlePhase_of_rom_fails hinbox hboot hfails])

/-- Settles O10: of what an IDLE step can do, a failed boot leaves the host's queues alone to change. -/
theorem loadErrorRunsNoFrame : Obligations.LoadErrorRunsNoFrame := by
  intro s t hphase hboot hstep
  rw [step, stepWith_of_idle _ hphase] at hstep
  cases hstep
  obtain heq | ⟨_, _, heq⟩ | ⟨hrun, -⟩ | ⟨hawait, -⟩ | ⟨hawait, -⟩ := idlePhase_cases s
  · rw [heq]
  · rw [heq]
  · exact absurd hboot hrun
  all_goals
    rw [hboot] at hawait
    cases hawait

/-- Settles O24: one case of the inbox's first item each. -/
theorem idleWaitsForTheHost : Obligations.IdleWaitsForTheHost := by
  intro s rest hphase
  have hstep : step s = .next s.idlePhase := stepWith_of_idle _ hphase
  rw [hstep]
  refine ⟨fun h => ?nothing, fun e h => ?event, fun h hboot => ?start, fun h hboot => ?failed, fun rom h hboot => ?late⟩
  case nothing => rw [idlePhase_of_nil h]
  case event => rw [idlePhase_of_event h]
  case start => rw [idlePhase_of_frameStart h hboot]
  case failed => rw [idlePhase_of_frameStart_failed h hboot]
  case late => rw [idlePhase_of_rom_late h hboot]

/-! ### INPUT drains the event queue (R290) -/

/-- Draining events changes the keypad and the quit bit only. -/
theorem foldl_applyEvent_eq : ∀ (es : List HostEvent) (s : State), es.foldl State.applyEvent s =
    { s with
      key := (es.foldl State.applyEvent s).key
      SEQ := { s.SEQ with quit := (es.foldl State.applyEvent s).SEQ.quit } }
  | [], _ => rfl
  | e :: es, s => by
    rw [List.foldl_cons, foldl_applyEvent_eq es]
    cases e <;> rfl

/-- Each key ends at the level of its last event, or as it was. -/
theorem foldl_applyEvent_key (k : Fin 16) : ∀ (es : List HostEvent) (s : State),
    (es.foldl State.applyEvent s).key.get k = (es.filterMap (HostEvent.levelFor k)).getLast?.getD (s.key.get k)
  | [], _ => rfl
  | e :: es, s => by
    rw [List.foldl_cons, foldl_applyEvent_key k es]
    cases e with
    | quit => rfl
    | key j down =>
      by_cases hj : j = k
      · subst hj
        simp [HostEvent.levelFor, State.applyEvent, Vector.get_eq_getElem, List.getLast?_cons]
      · have hne : j.val ≠ k.val := fun e => hj (Fin.ext e)
        simp [HostEvent.levelFor, State.applyEvent, Vector.get_eq_getElem, hj, Vector.getElem_set_ne _ _ hne]

theorem foldl_applyEvent_quit : ∀ (es : List HostEvent) (s : State),
    (es.foldl State.applyEvent s).SEQ.quit = true ↔ s.SEQ.quit = true ∨ HostEvent.quit ∈ es
  | [], _ => by simp
  | e :: es, s => by
    rw [List.foldl_cons, foldl_applyEvent_quit es]
    cases e <;> simp [State.applyEvent]

/-- The state after the events of INPUT are drained. -/
def State.drained (s : State) : State := s.keyEvents.foldl State.applyEvent { s with keyEvents := [] }

theorem State.drained_eq (s : State) : s.drained =
    { s with keyEvents := [], key := s.drained.key, SEQ := { s.SEQ with quit := s.drained.SEQ.quit } } :=
  foldl_applyEvent_eq s.keyEvents _

theorem State.drained_quit_iff (s : State) : s.drained.SEQ.quit = true ↔ s.SEQ.quit = true ∨ HostEvent.quit ∈ s.keyEvents :=
  foldl_applyEvent_quit s.keyEvents _

/-- With quit sampled INPUT halts the core (R271). -/
theorem inputPhase_of_quit {s : State} (h : s.drained.SEQ.quit = true) : s.inputPhase =
    { s with keyEvents := [], key := s.drained.key, SEQ := { phase := .halted, cycle := s.SEQ.cycle, quit := true } } := by
  have hphase : s.inputPhase = s.drained.setPhase .halted := if_pos h
  rw [hphase, State.setPhase, State.drained_eq]
  simp only [h]

/-- With no quit sampled INPUT begins the batch (R320). -/
theorem inputPhase_of_not_quit {s : State} (h : s.drained.SEQ.quit = false) : s.inputPhase =
    { s with keyEvents := [], key := s.drained.key, SEQ := { phase := .exec, cycle := 0, quit := false } } := by
  have hphase : s.inputPhase = { s.drained with SEQ := { s.drained.SEQ with phase := .exec, cycle := 0 } } :=
    if_neg (by change ¬ s.drained.SEQ.quit = true; rw [h]; exact Bool.false_ne_true)
  rw [hphase, State.drained_eq]
  simp only [h]

/-- Settles O25: the drained queue fixes the keys and quit, and quit fixes what follows. -/
theorem inputDrainsEventsInOrder : Obligations.InputDrainsEventsInOrder := by
  intro s hphase
  refine ⟨_, stepWith_of_input _ hphase, ?_⟩
  have hkey : ∀ k, s.drained.key.get k = (s.keyEvents.filterMap (HostEvent.levelFor k)).getLast?.getD (s.key.get k) :=
    fun k => foldl_applyEvent_key k s.keyEvents _
  have hquit := s.drained_quit_iff
  cases hq : s.drained.SEQ.quit with
  | true =>
    rw [inputPhase_of_quit hq]
    exact ⟨hkey, by simpa [hq] using hquit, fun _ => ⟨rfl, rfl⟩, fun hno => (nomatch hno), rfl, rfl⟩
  | false =>
    rw [inputPhase_of_not_quit hq]
    exact ⟨hkey, by simpa [hq] using hquit, fun hyes => (nomatch hyes), fun _ => ⟨rfl, rfl⟩, rfl, rfl⟩

end Sys2Proof.Machine
end

section
/-! The invariant of every step, and what a step can change or send (R37, R44, R261, R320, R332). -/

namespace Sys2Proof.Machine

/-! ### The end of a cycle writes IR and the cycle count at most -/

theorem endCycle_eq (before after : State) : ∃ IR cycle,
    endCycle before after = { after with IR := IR, SEQ := { after.SEQ with cycle := cycle } } := by
  cases hvalid : after.FAULT.valid with
  | true => exact ⟨before.IR, after.SEQ.cycle, endCycle_of_fault hvalid⟩
  | false => exact ⟨after.IR, after.SEQ.cycle + 1, endCycle_of_safe hvalid⟩

/-! ### The invariant (State.Sound) -/

/-- A sound core that is not halted has raised no fault and sampled no quit. -/
theorem State.Sound.running {s : State} (hs : s.Sound) (h : s.SEQ.phase ≠ .halted) :
    s.FAULT = FaultRecord.none ∧ s.SEQ.quit = false :=
  ⟨hs.faultClear (Bool.eq_false_iff.2 (mt hs.faultHalts h)), Bool.eq_false_iff.2 (mt hs.quitHalts h)⟩

/-- A core that runs is sound when memory is canonical, the count is in range, FAULT is clear, quit is not set and the
boot is over outside IDLE. -/
theorem sound_of_running {t : State} (hmem : t.mem.wf = true) (hcycle : t.SEQ.cycle ≤ Params.standard.cyclesPerFrame)
    (hfault : t.FAULT = FaultRecord.none) (hquit : t.SEQ.quit = false) (hphase : t.SEQ.phase ≠ .halted)
    (hboot : t.SEQ.phase ≠ .idle → t.boot = .ready) : t.Sound where
  memory := hmem
  cycle := hcycle
  faultHalts := fun h => by rw [hfault] at h; cases h
  quitHalts := fun h => by rw [hquit] at h; cases h
  haltedWhy := fun h => absurd h hphase
  faultClear := fun _ => hfault
  faultCode := fun h => by rw [hfault] at h; cases h
  framesAfterBoot := hboot

/-- Halting a sound core in a frame with a fault of R260 keeps it sound. -/
theorem sound_haltWith {s : State} (hs : s.Sound) (hphase : s.SEQ.phase ≠ .idle) (c : FaultCause) (pc w : Word) (info : Nat) :
    (s.haltWith (faultRecord c pc w info)).Sound where
  memory := hs.memory
  cycle := hs.cycle
  faultHalts := fun _ => rfl
  quitHalts := fun _ => rfl
  haltedWhy := fun _ => .inl rfl
  faultClear := fun h => nomatch h
  faultCode := fun _ => ⟨c, rfl⟩
  framesAfterBoot := fun _ => hs.framesAfterBoot hphase

theorem idlePhase_sound {s : State} (hs : s.Sound) (hphase : s.SEQ.phase = .idle) : s.idlePhase.Sound := by
  have hrun : s.SEQ.phase ≠ .halted := by rw [hphase]; decide
  obtain ⟨hfault, hquit⟩ := hs.running hrun
  obtain heq | ⟨inbox, keyEvents, heq⟩ | ⟨-, inbox, heq⟩ | ⟨-, bytes, rest, -, hlen, heq⟩ | ⟨-, inbox, heq⟩ :=
    idlePhase_cases s <;> rw [heq]
  · exact hs
  · exact sound_of_running hs.memory hs.cycle hfault hquit hrun hs.framesAfterBoot
  · exact sound_of_running hs.memory hs.cycle hfault hquit (fun h => nomatch h) fun _ => rfl
  · exact sound_of_running (Memory.putMany_wf hs.memory (by simp only [memSize]; omega)) hs.cycle hfault hquit hrun fun _ => rfl
  · exact sound_of_running hs.memory hs.cycle hfault hquit hrun fun h => absurd hphase h

theorem inputPhase_sound {s : State} (hs : s.Sound) (hphase : s.SEQ.phase = .input) : s.inputPhase.Sound := by
  have hrun : s.SEQ.phase ≠ .halted := by rw [hphase]; decide
  obtain ⟨hfault, -⟩ := hs.running hrun
  have hboot : s.boot = .ready := hs.framesAfterBoot (by rw [hphase]; decide)
  cases hq : s.drained.SEQ.quit with
  | true =>
    rw [inputPhase_of_quit hq]
    exact {
      memory := hs.memory
      cycle := hs.cycle
      faultHalts := fun _ => rfl
      quitHalts := fun _ => rfl
      haltedWhy := fun _ => .inr rfl
      faultClear := fun _ => hfault
      faultCode := hs.faultCode
      framesAfterBoot := fun _ => hboot }
  | false =>
    rw [inputPhase_of_not_quit hq]
    exact sound_of_running hs.memory (Nat.zero_le _) hfault rfl (fun h => nomatch h) fun _ => hboot

/-- Memory stays canonical under every instruction: only the stores write it, within range. -/
theorem exec_keeps_wf {i : Instr} {s t : State} (hwf : s.mem.wf = true) (h : exec i s = .next t) : t.mem.wf = true := by
  cases exec_effect h with
  | memory bs _ hin => exact Memory.putMany_wf hwf hin
  | raises | registers | screen | pc | stack | index | delayTimer | soundTimer => exact hwf

theorem exec_keeps_boot {i : Instr} {s t : State} (h : exec i s = .next t) : t.boot = s.boot := by
  cases exec_effect h <;> rfl

theorem instructionCycle_keeps_wf_and_boot (p : Params) {s t : State} (hwf : s.mem.wf = true)
    (h : instructionCycle p s = .next t) : t.mem.wf = true ∧ t.boot = s.boot := by
  obtain ⟨-, rfl⟩ | ⟨-, rfl⟩ | ⟨i, r, -, -, hexec, rfl⟩ := instructionCycle_inv p h
  · exact ⟨hwf, rfl⟩
  · obtain ⟨_, _, heq⟩ := endCycle_eq s (s.fetched.emit (.diag s.wordAtPc s.pc))
    rw [heq]
    exact ⟨hwf, rfl⟩
  · obtain ⟨_, _, heq⟩ := endCycle_eq s r
    have hwf' : r.mem.wf = true := exec_keeps_wf (s := s.fetched) hwf hexec
    have hboot : r.boot = s.fetched.boot := exec_keeps_boot hexec
    rw [heq]
    exact ⟨hwf', hboot⟩

/-- A cycle of a sound core: the fault halts it, or the count goes up to at most the batch's size. -/
theorem instructionCycle_sound {s t : State} (hs : s.Sound) (hphase : s.SEQ.phase = .exec)
    (hcycle : s.SEQ.cycle < Params.standard.cyclesPerFrame) (h : instructionCycle Params.standard s = .next t) : t.Sound := by
  have hrun : s.SEQ.phase ≠ .halted := by rw [hphase]; decide
  have hidle : s.SEQ.phase ≠ .idle := by rw [hphase]; decide
  obtain ⟨hfault, hquit⟩ := hs.running hrun
  have hsafe : s.Safe := by rw [State.Safe, hfault]; rfl
  obtain ⟨hwf, hboot⟩ := instructionCycle_keeps_wf_and_boot _ hs.memory h
  obtain ⟨c, info, rfl⟩ | ⟨hfault', hseq, -⟩ := instructionCycle_faults_or_counts _ hsafe h
  · exact sound_haltWith hs hidle c _ _ info
  · refine sound_of_running hwf ?_ (hfault'.trans hfault) ?_ ?_ fun _ => hboot.trans (hs.framesAfterBoot hidle)
    all_goals rw [hseq]
    exacts [hcycle, hquit, hrun]

/-- Moving a running core from one phase of the frame to another keeps it sound, whatever the timers, the audio gate and
the outputs are. -/
theorem sound_of_frame {s t : State} (hs : s.Sound) {ph : Phase} (hphase : s.SEQ.phase = ph) (hph : ph ≠ .idle ∧ ph ≠ .halted)
    (hmem : t.mem = s.mem) (hfault : t.FAULT = s.FAULT) (hboot : t.boot = s.boot) (ph' : Phase) (hph' : ph' ≠ .halted)
    (hseq : t.SEQ = { s.SEQ with phase := ph' }) : t.Sound := by
  subst hphase
  obtain ⟨hnone, hquit⟩ := hs.running hph.2
  refine sound_of_running (hmem ▸ hs.memory) ?_ (hfault.trans hnone) ?_ ?_ fun _ => hboot.trans (hs.framesAfterBoot hph.1)
  all_goals rw [hseq]
  exacts [hs.cycle, hquit, hph']

/-- Settles O18: the invariant holds after each phase, and after an instruction cycle by its two outcomes. -/
theorem stepKeepsSound : Obligations.StepKeepsSound := by
  intro s t hs hstep
  obtain ⟨hphase, rfl⟩ | ⟨hphase, rfl⟩ | ⟨hphase, hcycle, hexec⟩ | ⟨hphase, -, rfl⟩ | ⟨hphase, rfl⟩ | ⟨hphase, rfl⟩ |
    ⟨hphase, rfl⟩ | ⟨-, rfl⟩ := stepWith_cases s _ hstep
  · exact idlePhase_sound hs hphase
  · exact inputPhase_sound hs hphase
  · exact instructionCycle_sound hs hphase hcycle hexec
  · exact sound_of_frame hs hphase (by decide) rfl rfl rfl .audio (by decide) rfl
  · rw [State.audioPhase_eq]
    exact sound_of_frame hs hphase (by decide) rfl rfl rfl .timers (by decide) rfl
  · exact sound_of_frame hs hphase (by decide) rfl rfl rfl .render (by decide) rfl
  · exact sound_of_frame hs hphase (by decide) rfl rfl rfl .idle (by decide) rfl
  · exact hs

/-- Settles O19: HALTED's step answers its own state, and a valid FAULT has halted a sound core. -/
theorem haltedCoreDoesNothing : Obligations.HaltedCoreDoesNothing :=
  ⟨fun p _ hphase => stepWith_of_halted p hphase, fun _ hs hvalid => stepWith_of_halted _ (hs.faultHalts hvalid)⟩

/-- Settles O26: outside the batch EXEC's step only sets the phase. -/
theorem completeBatchGoesToAudio : Obligations.CompleteBatchGoesToAudio := fun p _ hphase hcomplete =>
  stepWith_of_completeBatch p hphase hcomplete

/-! ### The messages of a step (R43) -/

theorem instructionCycle_out (p : Params) {s t : State} (h : instructionCycle p s = .next t) :
    t.out = s.out ∨ ∃ o, t.out = s.out ++ [o] := by
  obtain ⟨-, rfl⟩ | ⟨-, rfl⟩ | ⟨i, r, -, -, hexec, rfl⟩ := instructionCycle_inv p h
  · exact .inr ⟨_, rfl⟩
  · obtain ⟨_, _, heq⟩ := endCycle_eq s (s.fetched.emit (.diag s.wordAtPc s.pc))
    rw [heq]
    exact .inr ⟨_, rfl⟩
  · obtain ⟨_, _, heq⟩ := endCycle_eq s r
    rw [heq]
    obtain ⟨-, -, hout⟩ | ⟨c, info, rfl⟩ := exec_keepsOrRaises i _ _ hexec
    · exact .inl hout
    · exact .inr ⟨_, rfl⟩

theorem idlePhase_out (s : State) : s.idlePhase.out = s.out ∨ ∃ o, s.idlePhase.out = s.out ++ [o] := by
  obtain heq | ⟨_, _, heq⟩ | ⟨-, _, heq⟩ | ⟨-, _, _, -, -, heq⟩ | ⟨-, _, heq⟩ := idlePhase_cases s <;> rw [heq]
  case inr.inr.inr.inr => exact .inr ⟨_, rfl⟩
  all_goals exact .inl rfl

theorem inputPhase_out (s : State) : s.inputPhase.out = s.out := by
  cases hq : s.drained.SEQ.quit with
  | true => rw [inputPhase_of_quit hq]
  | false => rw [inputPhase_of_not_quit hq]

theorem gateCommands_cases (want active : Bool) : gateCommands want active = [] ∨ ∃ o, gateCommands want active = [o] := by
  cases want <;> cases active <;> simp [gateCommands]

theorem audioPhase_out (s : State) : s.audioPhase.out = s.out ∨ ∃ o, s.audioPhase.out = s.out ++ [o] := by
  rw [State.audioPhase_eq]
  obtain hnone | ⟨o, hone⟩ := gateCommands_cases (s.ST != 0#8) s.audioActive
  · exact .inl (by rw [hnone, List.append_nil])
  · exact .inr ⟨o, by rw [hone]⟩

/-- Settles O20: each phase sends nothing or one message. -/
theorem stepSendsAtMostOneMessage : Obligations.StepSendsAtMostOneMessage := by
  intro p s t hstep
  obtain ⟨-, rfl⟩ | ⟨-, rfl⟩ | ⟨-, -, hexec⟩ | ⟨-, -, rfl⟩ | ⟨-, rfl⟩ | ⟨-, rfl⟩ | ⟨-, rfl⟩ | ⟨-, rfl⟩ :=
    stepWith_cases s p hstep
  · exact idlePhase_out s
  · exact .inl (inputPhase_out s)
  · exact instructionCycle_out p hexec
  · exact .inl rfl
  · exact audioPhase_out s
  · exact .inl rfl
  · exact .inr ⟨_, rfl⟩
  · exact .inl rfl

end Sys2Proof.Machine
end

section
/-! The frame sequence as a whole: what each phase may change, what the host's queues cannot reach, the Frame's payload, and
how a frame ends (R44, R295, R296, R320, R332). -/

namespace Sys2Proof.Machine

/-! ### Each phase changes its own state (R44, R332) -/

/-- Settles O22: each phase writes its own fields, and an instruction cycle writes, besides IR and the count, what its
instruction does. -/
theorem stateChangesOnlyInItsPhase : Obligations.StateChangesOnlyInItsPhase := by
  intro p s t hstep runs
  obtain ⟨hphase, rfl⟩ | ⟨hphase, rfl⟩ | ⟨hphase, -, hexec⟩ | ⟨hphase, -, rfl⟩ | ⟨hphase, rfl⟩ | ⟨hphase, rfl⟩ |
    ⟨hphase, rfl⟩ | ⟨hphase, rfl⟩ := stepWith_cases s p hstep
  · obtain heq | ⟨_, _, heq⟩ | ⟨-, _, heq⟩ | ⟨-, bytes, rest, hinbox, -, heq⟩ | ⟨-, _, heq⟩ := idlePhase_cases s <;> rw [heq]
    · simp [hphase]
    · simp [hphase]
    · simp [hphase]
    · simpa [hphase] using fun _ => ⟨bytes, rest, hinbox⟩
    · simp [hphase]
  · cases hq : s.drained.SEQ.quit with
    | true => rw [inputPhase_of_quit hq]; simp [hphase]
    | false => rw [inputPhase_of_not_quit hq]; simp [hphase]
  · obtain ⟨-, rfl⟩ | ⟨-, rfl⟩ | ⟨i, r, -, hdecode, hr, rfl⟩ := instructionCycle_inv p hexec
    · simp [State.raiseFetchFault, hphase]
    · obtain ⟨_, _, heq⟩ := endCycle_eq s (s.fetched.emit (.diag s.wordAtPc s.pc))
      rw [heq]
      simp [State.fetched, hphase]
    · have hruns : ∀ {j}, i = j → runs j := fun hj => ⟨hphase, hj ▸ hdecode⟩
      obtain ⟨-, -, -, -, -, hDT, hST, -, hfb, -, hdraws, hkey, haudio, -, hquit, -, hboot, hkeyEvents, hinbox⟩ :=
        instructionsWriteOnlyTheirState i s.fetched r hr
      obtain ⟨_, _, heq⟩ := endCycle_eq s r
      rw [heq]
      refine ⟨absurd hkey, absurd haudio, fun _ => hphase, fun hne => ?fb, fun hne => ?DT, fun hne => ?ST,
        fun _ => .inl hphase, absurd hquit, fun _ => .inr hphase, fun hne => ?draws, Or.rec (absurd hboot) (absurd hinbox),
        absurd hkeyEvents⟩
      case fb => exact (hfb hne).imp hruns fun ⟨x, y, n, hi⟩ => ⟨x, y, n, hruns hi⟩
      case DT => exact .inr ((hDT hne).imp fun _ => hruns)
      case ST => exact .inr ((hST hne).imp fun _ => hruns)
      case draws => exact (hdraws hne).imp fun _ => Exists.imp fun _ => hruns
  · simp [State.setPhase, hphase]
  · rw [State.audioPhase_eq]
    simp [hphase]
  · simp [State.timersPhase, hphase]
  · simp [State.renderPhase, hphase]
  · simp

/-! ### The host's queues do not reach the core (R44) -/

/-- The state with other host queues. -/
def State.withQueues (q : List HostInput) (e : List HostEvent) (s : State) : State := { s with inbox := q, keyEvents := e }

section Queues

variable (q : List HostInput) (e : List HostEvent)

theorem skipIf_withQueues (s : State) (c : Bool) : (s.withQueues q e).skipIf c = (s.skipIf c).withQueues q e := by
  cases c <;> rfl

theorem skipOnKey_withQueues (s : State) (x : Reg) (pressed : Bool) :
    (s.withQueues q e).skipOnKey x pressed = (s.skipOnKey x pressed).withQueues q e := by
  obtain hlt | hrange := Nat.lt_or_ge (s.readV x).toNat 16
  · have hkey : (s.readV x).toNat = (⟨_, hlt⟩ : Fin 16).val := rfl
    rw [State.skipOnKey_inRange s pressed hkey, State.skipOnKey_inRange (s.withQueues q e) pressed hkey]
    exact skipIf_withQueues q e s _
  · rw [State.skipOnKey_outOfRange s pressed hrange, State.skipOnKey_outOfRange (s.withQueues q e) pressed hrange]
    rfl

theorem storeAtI_withQueues (s : State) {bs : List Byte} (hbs : bs ≠ []) :
    (s.withQueues q e).storeAtI bs = (s.storeAtI bs).withQueues q e := by
  by_cases hin : s.I.toNat + bs.length ≤ memSize
  · rw [State.storeAtI_inRange hbs hin, State.storeAtI_inRange (s := s.withQueues q e) hbs hin]
    rfl
  · rw [State.storeAtI_outOfRange hbs hin, State.storeAtI_outOfRange (s := s.withQueues q e) hbs hin]
    rfl

theorem loadRegs_withQueues : ∀ (bs : List Byte) (k : Nat) (s : State),
    (s.withQueues q e).loadRegs k bs = (s.loadRegs k bs).withQueues q e
  | [], _, _ => rfl
  | b :: bs, k, s => loadRegs_withQueues bs (k + 1) (s.writeV (BitVec.ofNat 4 k) b)

/-- No instruction reads or writes the host's queues. -/
theorem exec_withQueues (i : Instr) (s : State) :
    exec i (s.withQueues q e) = mapNext (State.withQueues q e) (exec i s) := by
  cases i
  case call nnn =>
    obtain hlt | hfull : s.sp.val < 16 ∨ s.sp.val = 16 := by omega
    · rw [exec_call_of_lt nnn hlt, exec_call_of_lt (s := s.withQueues q e) nnn hlt]; rfl
    · rw [exec_call_of_full nnn hfull, exec_call_of_full (s := s.withQueues q e) nnn hfull]; rfl
  case ret =>
    obtain hempty | ⟨k, hk⟩ := sp_eq_zero_or_succ s
    · rw [exec_ret_of_empty hempty, exec_ret_of_empty (s := s.withQueues q e) hempty]; rfl
    · rw [exec_ret_of_eq_succ hk, exec_ret_of_eq_succ (s := s.withQueues q e) hk]; rfl
  case drw x y n =>
    by_cases hin : n = 0#4 ∨ s.I.toNat + n.toNat ≤ 4096
    · rw [exec_drw_inRange x y hin, exec_drw_inRange (s := s.withQueues q e) x y hin]; rfl
    · obtain ⟨hn, hout⟩ := not_or.1 hin
      have hout' := Nat.not_le.1 hout
      rw [exec_drw_outOfRange x y hn hout', exec_drw_outOfRange (s := s.withQueues q e) x y hn hout']; rfl
  case ldVxK x =>
    cases hkey : firstPressed s.key with
    | some k => rw [exec_ldVxK_of_some x hkey, exec_ldVxK_of_some (s := s.withQueues q e) x hkey]; rfl
    | none => rw [exec_ldVxK_of_none x hkey, exec_ldVxK_of_none (s := s.withQueues q e) x hkey]; rfl
  case ldVxMem x =>
    obtain hin | hout := Nat.lt_or_ge (s.I.toNat + x.toNat) 4096
    · rw [exec_ldVxMem_inRange hin, exec_ldVxMem_inRange (s := s.withQueues q e) hin]
      exact congrArg Host.Outcome.next (loadRegs_withQueues q e _ 0 s)
    · rw [exec_ldVxMem_outOfRange hout, exec_ldVxMem_outOfRange (s := s.withQueues q e) hout]; rfl
  case ldB x => exact congrArg Host.Outcome.next (storeAtI_withQueues q e s (bcdDigits_ne_nil _))
  case ldMemVx x => exact congrArg Host.Outcome.next (storeAtI_withQueues q e s (regsUpTo_ne_nil s x))
  case skp x | sknp x => exact congrArg Host.Outcome.next (skipOnKey_withQueues q e s x _)
  case seImm | sneImm | seReg | sneReg => exact congrArg Host.Outcome.next (skipIf_withQueues q e s _)
  all_goals rfl

theorem execDecoded_withQueues (d : Decoded) (s : State) :
    execDecoded d (s.withQueues q e) = mapNext (State.withQueues q e) (execDecoded d s) := by
  cases d with
  | known i => exact exec_withQueues q e i s
  | unknown w => rfl

theorem endCycle_withQueues (before after : State) :
    endCycle (before.withQueues q e) (after.withQueues q e) = (endCycle before after).withQueues q e := by
  cases hvalid : after.FAULT.valid with
  | true => rw [endCycle_of_fault hvalid, endCycle_of_fault (after := after.withQueues q e) hvalid]; rfl
  | false => rw [endCycle_of_safe hvalid, endCycle_of_safe (after := after.withQueues q e) hvalid]; rfl

theorem instructionCycle_withQueues (p : Params) (s : State) :
    instructionCycle p (s.withQueues q e) = mapNext (State.withQueues q e) (instructionCycle p s) := by
  by_cases hfetch : s.CanFetch
  · obtain ⟨r, hr⟩ := execDecoded_answers_next (decode p.sysIsUnknown s.wordAtPc) s.fetched
    have hr' := execDecoded_withQueues q e (decode p.sysIsUnknown s.wordAtPc) s.fetched
    rw [hr] at hr'
    rw [instructionCycle_of_canFetch p hfetch hr, instructionCycle_of_canFetch (s := s.withQueues q e) p hfetch hr',
      endCycle_withQueues]
    rfl
  · rw [instructionCycle_of_not_canFetch p hfetch, instructionCycle_of_not_canFetch (s := s.withQueues q e) p hfetch]
    rfl

end Queues

/-- Settles O23: outside IDLE and INPUT each phase commutes with a change of the queues. -/
theorem hostQueuesDoNotReachTheCore : Obligations.HostQueuesDoNotReachTheCore := by
  intro p s t q e hidle hinput hstep
  change stepWith p (s.withQueues q e) = .next (t.withQueues q e)
  obtain ⟨hphase, -⟩ | ⟨hphase, -⟩ | ⟨hphase, hcycle, hexec⟩ | ⟨hphase, hcomplete, rfl⟩ | ⟨hphase, rfl⟩ | ⟨hphase, rfl⟩ |
    ⟨hphase, rfl⟩ | ⟨hphase, rfl⟩ := stepWith_cases s p hstep
  · exact absurd hphase hidle
  · exact absurd hphase hinput
  · rw [stepWith_of_cycle (s := s.withQueues q e) p hphase hcycle, instructionCycle_withQueues, hexec]
    rfl
  · exact stepWith_of_completeBatch (s := s.withQueues q e) p hphase (Nat.not_lt.1 hcomplete)
  · rw [stepWith_of_audio (s := s.withQueues q e) p hphase, State.audioPhase_eq, State.audioPhase_eq]
    rfl
  · exact stepWith_of_timers (s := s.withQueues q e) p hphase
  · exact stepWith_of_render (s := s.withQueues q e) p hphase
  · exact stepWith_of_halted p hphase

end Sys2Proof.Machine
end

section
/-! The end of a frame: the Frame's payload, and the fifteen steps from INPUT (R295, R296, R320). -/

namespace Sys2Proof.Machine

/-! ### The Frame's payload (R296, D26) -/

/-- Rows laid out one above the other, the first lowest: `framePayload` of the framebuffer's rows. -/
def rowsPayload : List (BitVec 64) → BitVec 2048
  | [] => 0#2048
  | row :: rows => rowsPayload rows <<< 64 ||| row.setWidth 2048

theorem rowsPayload_toList (fb : Framebuffer) : rowsPayload fb.toList = framePayload fb := by
  unfold framePayload
  induction fb.toList with
  | nil => rfl
  | cons row rows ih => rw [rowsPayload, ih, List.foldr_cons]

/-- Bit `y * 64 + x` of the rows is bit x of row y, as long as it lies below bit 2048. -/
theorem getLsbD_rowsPayload {x : Nat} (hx : x < 64) : ∀ (rows : List (BitVec 64)) (y : Nat) (hy : y < rows.length),
    y * 64 + x < 2048 → (rowsPayload rows).getLsbD (y * 64 + x) = rows[y].getLsbD x
  | row :: rows, 0, _, _ => by
    have hlt : x < 2048 := by omega
    rw [rowsPayload, BitVec.getLsbD_or, BitVec.getLsbD_shiftLeft, BitVec.getLsbD_setWidth]
    simp [hx, hlt]
  | row :: rows, y + 1, hy, hlt => by
    have hbelow : (y + 1) * 64 + x - 64 = y * 64 + x := by omega
    have hfar : 64 ≤ (y + 1) * 64 + x := by omega
    have hrow : row.getLsbD ((y + 1) * 64 + x) = false := BitVec.getLsbD_of_ge row _ hfar
    have hlen : y < rows.length := Nat.lt_of_succ_lt_succ hy
    rw [rowsPayload, BitVec.getLsbD_or, BitVec.getLsbD_setWidth, hrow, Bool.and_false, Bool.or_false,
      BitVec.getLsbD_shiftLeft, hbelow, getLsbD_rowsPayload hx rows y hlen (by omega)]
    simp [hlt, Nat.not_lt.2 hfar]

theorem framePayload_getLsbD (fb : Framebuffer) (x : Fin 64) (y : Fin 32) :
    (framePayload fb).getLsbD (y.val * 64 + x.val) = fb.pixel x y := by
  rw [← rowsPayload_toList]
  exact getLsbD_rowsPayload x.isLt fb.toList y.val (by rw [Vector.length_toList]; exact y.isLt) (by omega)

/-- Settles O29: RENDER's step sends the payload whose bits are the pixels. -/
theorem renderSendsEveryPixel : Obligations.RenderSendsEveryPixel := fun s hphase =>
  ⟨framePayload s.fb, stepWith_of_render _ hphase, framePayload_getLsbD s.fb⟩

/-! ### Runs -/

theorem run_succ {s t : State} (k : Nat) (h : step s = .next t) : core.run (k + 1) s = core.run k t := by
  have hstep : core.step s = .next t := h
  simp only [Host.Core.run, hstep]

theorem run_of_halted {s : State} (h : s.SEQ.phase = .halted) : ∀ k, core.run k s = .next s
  | 0 => rfl
  | k + 1 => (run_succ k (stepWith_of_halted _ h)).trans (run_of_halted h k)

/-! ### How a frame can end -/

/-- From s to t, messages were sent but no Frame. -/
def NoFrameSent (s t : State) : Prop := ∃ sent, t.out = s.out ++ sent ∧ sent.countP Output.isFrame = 0

/-- From s to t, the frame came to its end: one Frame more, the last message, and IDLE; or none more, and HALTED. -/
def FrameEnded (s t : State) : Prop :=
  s.out <+: t.out ∧
    ((t.SEQ.phase = .idle ∧ (∃ payload, t.out.getLast? = some (.frame payload)) ∧
        t.out.countP Output.isFrame = s.out.countP Output.isFrame + 1) ∨
      (t.SEQ.phase = .halted ∧ t.out.countP Output.isFrame = s.out.countP Output.isFrame))

theorem NoFrameSent.countP_eq {s t : State} (h : NoFrameSent s t) :
    t.out.countP Output.isFrame = s.out.countP Output.isFrame := by
  obtain ⟨sent, hout, hnone⟩ := h
  rw [hout, List.countP_append, hnone, Nat.add_zero]

theorem NoFrameSent.out_isPrefix {s t : State} (h : NoFrameSent s t) : s.out <+: t.out := by
  obtain ⟨sent, hout, -⟩ := h
  exact ⟨sent, hout.symm⟩

theorem NoFrameSent.of_out_eq {s t : State} (h : t.out = s.out) : NoFrameSent s t :=
  ⟨[], by rw [h, List.append_nil], rfl⟩

theorem NoFrameSent.frameEnded {s t u : State} (hst : NoFrameSent s t) (htu : FrameEnded t u) : FrameEnded s u := by
  obtain ⟨hprefix, hend⟩ := htu
  rw [hst.countP_eq] at hend
  exact ⟨hst.out_isPrefix.trans hprefix, hend⟩

theorem NoFrameSent.frameEnded_of_halted {s t : State} (hst : NoFrameSent s t) (h : t.SEQ.phase = .halted) :
    FrameEnded s t :=
  ⟨hst.out_isPrefix, .inr ⟨h, hst.countP_eq⟩⟩

/-! ### The fifteen steps -/

theorem gateCommands_countP (want active : Bool) : (gateCommands want active).countP Output.isFrame = 0 := by
  cases want <;> cases active <;> rfl

/-- With the batch complete, four steps end the frame: leaving EXEC, AUDIO, TIMERS and RENDER. -/
theorem run_of_completeBatch {s : State} (hphase : s.SEQ.phase = .exec) (hcycle : s.SEQ.cycle = 10) :
    ∃ t, core.run 4 s = .next t ∧ FrameEnded s t := by
  have haudio : step s = .next (s.setPhase .audio) := stepWith_of_completeBatch _ hphase (Nat.le_of_eq hcycle.symm)
  refine ⟨(s.setPhase .audio).audioPhase.timersPhase.renderPhase, ?run, ?ended⟩
  case run =>
    rw [run_succ 3 haudio, run_succ 2 (step_of_audio rfl), run_succ 1 (step_of_timers rfl)]
    exact run_succ 0 (stepWith_of_render _ rfl)
  case ended =>
    have hgate : NoFrameSent s (s.setPhase .audio).audioPhase := by
      rw [State.audioPhase_eq]
      exact ⟨_, rfl, gateCommands_countP _ _⟩
    refine hgate.frameEnded ⟨List.prefix_append _ _, .inl ⟨rfl, ⟨_, List.getLast?_concat⟩, ?_⟩⟩
    exact List.countP_append

/-- From an instruction cycle with k more to come, the batch, and after it the frame, comes to its end. -/
theorem run_of_batch : ∀ (k : Nat) (s : State), s.Sound → s.SEQ.phase = .exec → s.SEQ.cycle + k = 10 →
    ∃ t, core.run (k + 4) s = .next t ∧ FrameEnded s t
  | 0, s, _, hphase, hcycle => run_of_completeBatch hphase hcycle
  | k + 1, s, hs, hphase, hcycle => by
    have hcount : s.SEQ.cycle < Params.standard.cyclesPerFrame := by simp only [Params.standard]; omega
    have hsafe : s.Safe := by
      rw [State.Safe, (hs.running (by rw [hphase]; decide)).1]
      rfl
    obtain ⟨u, hstep⟩ := everyStepAnswersNext Params.standard s
    have hcycleStep := stepWith_of_cycle _ hphase hcount ▸ hstep
    rw [show k + 1 + 4 = k + 4 + 1 by omega, run_succ (k + 4) hstep]
    obtain ⟨c, info, rfl⟩ | ⟨-, hseq, hout⟩ := instructionCycle_faults_or_counts _ hsafe hcycleStep
    · exact ⟨_, run_of_halted rfl _, NoFrameSent.frameEnded_of_halted ⟨_, rfl, rfl⟩ rfl⟩
    · have hquiet : NoFrameSent s u := by
        obtain hout | ⟨w, pc, hout⟩ := hout
        · exact .of_out_eq hout
        · exact ⟨_, hout, rfl⟩
      obtain ⟨t, hrun, hend⟩ := run_of_batch k u (stepKeepsSound s u hs hstep) (by rw [hseq]; exact hphase)
        (by rw [hseq]; simp only; omega)
      exact ⟨t, hrun, hquiet.frameEnded hend⟩

/-- Settles O30: INPUT halts on a quit, or begins a batch of ten cycles, which comes to its end in fourteen steps. -/
theorem frameEndsAndSendsOneFrame : Obligations.FrameEndsAndSendsOneFrame := by
  intro s hs hphase
  have hstep : step s = .next s.inputPhase := stepWith_of_input _ hphase
  have hsound := stepKeepsSound s _ hs hstep
  have hquiet : NoFrameSent s s.inputPhase := .of_out_eq (inputPhase_out s)
  rw [run_succ 14 hstep]
  cases hq : s.drained.SEQ.quit with
  | true =>
    have hhalted : s.inputPhase.SEQ.phase = .halted := by rw [inputPhase_of_quit hq]
    exact ⟨_, run_of_halted hhalted 14, hquiet.frameEnded_of_halted hhalted⟩
  | false =>
    obtain ⟨t, hrun, hend⟩ := run_of_batch 10 s.inputPhase hsound (by rw [inputPhase_of_not_quit hq])
      (by rw [inputPhase_of_not_quit hq])
    exact ⟨t, hrun, hquiet.frameEnded hend⟩

end Sys2Proof.Machine
end
